-- ==== Sys2Proof/Word.lean ====
section
/-! DEFINITION. The widths and ranges every other file uses: bytes, operand fields, command and response words,
framebuffer columns and banks (00_scope R7, R10; 30_encoding R70, R71, R80). -/

namespace Sys2Proof

/-- One framebuffer cell, and the byte part of a transport item (R20, R52). -/
abbrev Byte := BitVec 8

/-- One operand field `P0 … P3` of a command word (R71). -/
abbrev Field := BitVec 16

/-- A command word `CW[71:0]` (R70). -/
abbrev CommandWord := BitVec 72

/-- A response `RSP[16:0]`: `REJECT` at bit 16, `CODE` at bits 15:0 (R80). -/
abbrev ResponseWord := BitVec 17

/-- A framebuffer column, `0 ≤ x < W` with `W = 84` (R7, R41). -/
abbrev Column := Fin 84

/-- A framebuffer bank, `0 ≤ b < NB` with `NB = 6` (R7, R41). -/
abbrev Bank := Fin 6

/-- A bit of a cell; bit `k` of a cell of bank `b` is row `8 b + k` (R21). -/
abbrev BitNo := Fin 8

/-- A point `(x, y)` of the rasterizers: two integers, which need not lie on the display (R9). -/
abbrev Point := Int × Int

end Sys2Proof
end

