-- ==== Sys2Proof/Syntax.lean ====
section
/-! DEFINITION. The five commands (30_encoding R74), with the operands as the integers that every rule works on (R72, R82). -/

namespace Sys2Proof

/-- The commands of the engine, one constructor per row of the opcode table (R74). -/
inductive Instr where
  /-- SETPIXEL, opcode `0x01` (R102). -/
  | setPixel (x y : Int)
  /-- AXISLINE, opcode `0x02`; `ori` is the orientation tag, of which every integer is legal (R73, R78, R111). -/
  | axisLine (x y ori : Int)
  /-- LINE, opcode `0x03` (R121). -/
  | line (x0 y0 x1 y1 : Int)
  /-- CLEAR, opcode `0x04` (R140). -/
  | clear
  /-- INIT, opcode `0x05` (R144). -/
  | init
deriving DecidableEq, Repr

end Sys2Proof
end

