-- ==== Sys2Proof/WellFormed.lean ====
section
/-! DEFINITION. Which commands can be encoded: every operand fits a 16-bit two's complement field (30_encoding R72, R89).
No further check exists: every 16-bit pattern is a legal coordinate and a legal orientation tag (R73). -/

namespace Sys2Proof

/-- The integer is a value of an operand field, `−32768 ≤ n ≤ 32767` (R72, R89). -/
abbrev Encodable (n : Int) : Prop := -32768 ≤ n ∧ n ≤ 32767

/-- The command has an encoding: each of its operands is the value of an operand field (R89). -/
def Instr.wellFormed : Instr → Bool
  | .setPixel x y => decide (Encodable x) && decide (Encodable y)
  | .axisLine x y ori => decide (Encodable x) && decide (Encodable y) && decide (Encodable ori)
  | .line x0 y0 x1 y1 => decide (Encodable x0) && decide (Encodable y0) && decide (Encodable x1) && decide (Encodable y1)
  | .clear => true
  | .init => true

end Sys2Proof
end

