-- ==== Sys2Proof/Decode.lean ====
section
/-! DEFINITION. The decoder, total on all 72-bit words (30_encoding R71, R72, R75, R76, R82), and the encoder written from
the same table (R74). -/

namespace Sys2Proof

/-- The fields of a command word (R71). -/
structure Fields where
  op : Byte
  p0 : Field
  p1 : Field
  p2 : Field
  p3 : Field
deriving DecidableEq, Repr

/-- `CW[71:64]`, `CW[63:48]`, `CW[47:32]`, `CW[31:16]`, `CW[15:0]` (R71). -/
def fields (w : CommandWord) : Fields :=
  { op := w.extractLsb' 64 8
    p0 := w.extractLsb' 48 16
    p1 := w.extractLsb' 32 16
    p2 := w.extractLsb' 16 16
    p3 := w.extractLsb' 0 16 }

/-- The word with the given fields, `OP` first (R71). -/
def ofFields (f : Fields) : CommandWord :=
  f.op ++ (f.p0 ++ (f.p1 ++ (f.p2 ++ f.p3)))

/-- `sext_16` (R10, R72): the field as a two's complement integer, `−32768 … 32767`. -/
def sext16 (p : Field) : Int := p.toInt

/-- Why a word spells no command: its opcode is reserved (R75), or a field that must be zero is not (R76). -/
inductive ReservedWord where
  | opcode (op : Byte)
  | mustBeZero (op : Byte)
deriving DecidableEq, Repr

/-- What a command word is: a command, or a reserved word, which the engine rejects (R77). -/
inductive Decoded where
  | command (i : Instr)
  | reserved (why : ReservedWord)
deriving DecidableEq, Repr

/-- The opcode map over the fields (R74, R82). -/
def decodeFields (f : Fields) : Decoded :=
  if f.op = 0x01#8 then
    if f.p2 = 0#16 ∧ f.p3 = 0#16 then .command (.setPixel (sext16 f.p0) (sext16 f.p1)) else .reserved (.mustBeZero f.op)
  else if f.op = 0x02#8 then
    if f.p3 = 0#16 then .command (.axisLine (sext16 f.p0) (sext16 f.p1) (sext16 f.p2)) else .reserved (.mustBeZero f.op)
  else if f.op = 0x03#8 then
    .command (.line (sext16 f.p0) (sext16 f.p1) (sext16 f.p2) (sext16 f.p3))
  else if f.op = 0x04#8 then
    if f.p0 = 0#16 ∧ f.p1 = 0#16 ∧ f.p2 = 0#16 ∧ f.p3 = 0#16 then .command .clear else .reserved (.mustBeZero f.op)
  else if f.op = 0x05#8 then
    if f.p0 = 0#16 ∧ f.p1 = 0#16 ∧ f.p2 = 0#16 ∧ f.p3 = 0#16 then .command .init else .reserved (.mustBeZero f.op)
  else .reserved (.opcode f.op)

/-- Decoding, total on any 72 bits (R82). -/
def decode (w : CommandWord) : Decoded := decodeFields (fields w)

/-- The operand field that holds an integer: its 16-bit two's complement (R72, R89). -/
def operandField (n : Int) : Field := BitVec.ofInt 16 n

/-- The fields that spell a command (R74). -/
def encodeFields : Instr → Fields
  | .setPixel x y => ⟨0x01#8, operandField x, operandField y, 0#16, 0#16⟩
  | .axisLine x y ori => ⟨0x02#8, operandField x, operandField y, operandField ori, 0#16⟩
  | .line x0 y0 x1 y1 => ⟨0x03#8, operandField x0, operandField y0, operandField x1, operandField y1⟩
  | .clear => ⟨0x04#8, 0#16, 0#16, 0#16, 0#16⟩
  | .init => ⟨0x05#8, 0#16, 0#16, 0#16, 0#16⟩

/-- The command word of a well-formed command (R74). -/
def encode (i : Instr) : CommandWord := ofFields (encodeFields i)

/-- The command word that a number of `nbits` bits stands for, in the opcode table's own bit numbering (log 21). -/
def tableWord (nbits w : Nat) : CommandWord := BitVec.ofNat 72 (w % 2 ^ nbits)

/-- The command the decoder reads from a word numbered as the opcode table numbers its rows (log 21). -/
def decodeTableWord (nbits w : Nat) : Option Instr :=
  match decode (tableWord nbits w) with
  | .command i => some i
  | .reserved _ => none

end Sys2Proof
end

