-- ==== Sys2Proof/Config.lean ====
section
/-! DEFINITION. What the spec leaves open for the whole life of one machine (00_scope R8) and the free values: constants
without a body, so that no proof can learn what they are. -/

namespace Sys2Proof.Config

/-- The open parameters `COLCMD` and `BANKCMD` (R8, D7, U10) in one constant: a permutation of the bytes, applied to the
code points that `Machine.colCmd` and `Machine.bankCmd` give a column and a bank. `COLCMD` and `BANKCMD` are required to
be injective with disjoint images and nothing more; each such pair is what some permutation gives, and each permutation
gives such a pair (assumption log 10). -/
opaque commandBytes : Equiv.Perm Byte

/-- The open parameter `INIT_SEQ`: the controller configuration bytes, in order (R8, D15, U8; log 11). -/
opaque initSeq : List Byte

/-- FREE VALUE: what cell `[x][b]` of the framebuffer holds after the reset numbered by the first argument until it is
written (R33, U2; log 6). -/
opaque unwrittenCell : Nat → Column → Bank → Byte

/-- FREE VALUE: what byte `[x][b]` of the display RAM holds after the display's loss of contents numbered by the first
argument until it is written (R60, U1; log 13). -/
opaque unwrittenDisplay : Nat → Column → Bank → Byte

/-- FREE VALUE: the column part of the display's pointer where the spec leaves it unspecified (R33, R62, U6; log 14). -/
opaque freeColumn : Nat → Column

/-- FREE VALUE: the bank part of the display's pointer where the spec leaves it unspecified (R33, R62, U6; log 14). -/
opaque freeBank : Nat → Bank

/-- FREE VALUE: the opcode latch `OP` when no command is executing (R33, U7; log 8, log 9). -/
opaque freeOpcode : Nat → Byte

/-- FREE VALUE: the operand latch `P0 … P3`, chosen by the second argument, when no command is executing (R33, U7;
log 8, log 9). -/
opaque freeOperand : Nat → Fin 4 → Field

/-- FREE VALUE: `RSP` from a reset to the first response after it (R33, U11; log 8). -/
opaque freeResponse : Nat → ResponseWord

/-- FREE VALUE: whether a byte whose transfer is never completed nevertheless reached the display (R57, R179; log 5). -/
opaque stuckByteArrives : Nat → Bool

end Sys2Proof.Config
end

