-- ==== Sys2Proof/Machine/State.lean ====
section
/-! DEFINITION. The state of the engine, of the transport and the display behind it, and of what the outside world does
next, as plain data; its value at reset; the reasons a step can stop (10_state, 20_memory parts 4 and 7, 70 part 1). -/

namespace Sys2Proof.Machine

/-- A memory: the cells that hold a value, in rising order of their addresses; an address that is not listed holds no
value yet. `Memory.wf` in Machine/Ops.lean is the canonical form. -/
abbrev Memory := List Host.Cell

/-- A store of 84 × 6 bytes: the bytes written since it last lost its contents, and the number of that loss, from which
a byte not written since takes its free value (R33, R60; log 6, log 13). -/
structure CellStore where
  cells : Memory
  era   : Nat
deriving DecidableEq, Repr

/-- One item on the transport port: a byte and the flag `isData` (R40, R52). -/
structure Tx where
  value  : Byte
  isData : Bool
deriving DecidableEq, Repr

/-- Which writes the transport completes from now on: all of them (the premise `TransportLive`, D20), or exactly `n` more,
after which it hangs (R57). A blocking link can behave in no other way, time apart (log 2). -/
inductive Transport where
  | live
  | hangsAfter (n : Nat)
deriving DecidableEq, Repr

/-- The display behind the transport (environment model, R60 to R63). -/
structure Display where
  /-- `DR[x][b]` (R60). -/
  ram    : CellStore
  /-- `px`, the column part of the RAM pointer (R60). -/
  column : Column
  /-- `pb`, the bank part of the RAM pointer (R60). -/
  bank   : Bank
  /-- The display is in the condition in which R61 and R62 hold (R63; log 13). -/
  ready  : Bool
  /-- The model's own counter of the display's free values (log 13, log 14). -/
  free   : Nat
deriving DecidableEq, Repr

/-- What the outside world does to the engine (R5, R170, R172; log 17). -/
inductive Input where
  /-- The host issues a command word (R70). -/
  | command (w : CommandWord)
  /-- Reset, with the behaviour of the transport from then on (R170; log 18). -/
  | reset (plan : Transport)
  /-- The host brings the display up by other means than INIT (R172). -/
  | bringUpDisplay
deriving DecidableEq, Repr

/-- The machine. -/
structure State where
  /-- `FB` (R20). -/
  fb          : CellStore
  /-- `OP` (R25). -/
  op          : Byte
  /-- `P0` (R24). -/
  p0          : Field
  /-- `P1` (R24). -/
  p1          : Field
  /-- `P2` (R24). -/
  p2          : Field
  /-- `P3` (R24). -/
  p3          : Field
  /-- `BUSY` (R27). -/
  busy        : Bool
  /-- `FAULT` (R28). -/
  fault       : Bool
  /-- `RSP` (R29). -/
  rsp         : ResponseWord
  /-- The responses since reset, oldest first: the list of responses that is part of a run's result (R187; log 27). -/
  responses   : List ResponseWord
  /-- The completed transport writes since reset, oldest first (R12; log 4). -/
  trace       : List Tx
  /-- The write handed to the transport and not completed (R55, R187; log 4). -/
  outstanding : Option Tx
  /-- The transport's completion indication, as a plan (R32, R57; log 2). -/
  transport   : Transport
  /-- The display (R60). -/
  display     : Display
  /-- What the outside world does next, oldest first (log 17). -/
  inputs      : List Input
  /-- The model's own counter of the engine's free values (log 8, log 9). -/
  free        : Nat
deriving DecidableEq, Repr

/-- Why a step answers a fault. -/
inductive Fault where
  /-- Raised by a step of an engine that `InvariantFault` has halted, unless the next input is a reset: nothing further
  happens until reset (R156, R162). Safe: the spec gives such an engine no step, and no run reaches it (R113, R132). -/
  | engineHalted
deriving DecidableEq, Repr

/-- Why a step answers a refusal. -/
inductive Refusal where
  /-- Raised by an arm of `exec` whose instruction has no meaning yet; no arm of this model raises it. Safe. -/
  | notModelled (mnemonic : String)
deriving DecidableEq, Repr

/-- The display at power-up: RAM and pointer unspecified, and nothing known of how it takes a byte (R33, R60, R63). -/
def Display.powerUp : Display :=
  { ram := { cells := [], era := 0 }
    column := Config.freeColumn 0
    bank := Config.freeBank 0
    ready := false
    free := 1 }

/-- The machine right after reset and power-up (R33, R170, R171). -/
def State.reset : State :=
  { fb := { cells := [], era := 0 }
    op := Config.freeOpcode 0
    p0 := Config.freeOperand 0 0
    p1 := Config.freeOperand 0 1
    p2 := Config.freeOperand 0 2
    p3 := Config.freeOperand 0 3
    busy := false
    fault := false
    rsp := Config.freeResponse 0
    responses := []
    trace := []
    outstanding := none
    transport := .live
    display := .powerUp
    inputs := []
    free := 1 }

end Sys2Proof.Machine
end

