-- ==== Sys2Proof/Machine/Flags.lean ====
section
/-! DEFINITION. The indications a command leaves. There are no flags and no condition codes (10_state R31): the only result
of a command is its response word (30_encoding R80, R81). -/

namespace Sys2Proof.Machine

/-- The code of a success (R81). -/
def codeOk : Int := 0

/-- The failure code of SETPIXEL (R81, R150). -/
def codePixelInvalid : Int := 1

/-- The failure code of AXISLINE and of LINE (R81, R150). -/
def codeLineInvalid : Int := -1

/-- The response of a command that ends with code `c`: `REJECT = 0`, `CODE` the 16-bit two's complement of `c` (R80). -/
def response (c : Int) : ResponseWord := 0#1 ++ BitVec.ofInt 16 c

/-- The response to a rejected word: `REJECT = 1`, `CODE = 0` (R80, R154). -/
def rejectResponse : ResponseWord := 1#1 ++ 0#16

/-- `RSP[16]` (R80). -/
def responseReject (r : ResponseWord) : Bool := r.getLsbD 16

/-- `RSP[15:0]` as the two's complement integer it stands for (R80). -/
def responseCode (r : ResponseWord) : Int := (r.extractLsb' 0 16).toInt

end Sys2Proof.Machine
end

