-- ==== Sys2Proof/Machine/Operands.lean ====
section
/-! DEFINITION. What the operands of a command mean: the range checks (00_scope R11), the coordinate-to-bank/bit translator
(20_memory R42) and the orientation tag (30_encoding R78). -/

namespace Sys2Proof.Machine

/-- `inX`: `0 ≤ v` and `v < W`, `W = 84` (R11). -/
abbrev inX (v : Int) : Prop := 0 ≤ v ∧ v < 84

/-- `inY`: `0 ≤ v` and `v < H`, `H = 48` (R11). -/
abbrev inY (v : Int) : Prop := 0 ≤ v ∧ v < 48

/-- The point is a coordinate, that is, a pixel of the display (00 glossary, "Coordinate"). -/
abbrev onDisplay (p : Point) : Prop := inX p.1 ∧ inY p.2

/-- Where a pixel is kept: the cell and the bit in it (R41, R42). -/
structure PixelAddr where
  column : Column
  bank   : Bank
  bit    : BitNo
deriving DecidableEq, Repr

/-- The translator: `Valid(column, bank, bit)` for a coordinate, `none` for every other pair (R42). -/
def translate (x y : Int) : Option PixelAddr :=
  if h : inX x ∧ inY y then
    some
      { column := ⟨x.toNat, by omega⟩
        bank := ⟨y.toNat / 8, by omega⟩
        bit := ⟨y.toNat % 8, by omega⟩ }
  else none

/-- The mask of a bit of a cell, `1 << bit` (R42, R43). -/
def bitMask (k : BitNo) : Byte := 1#8 <<< k.val

/-- The two orientations the engine knows (R78). -/
inductive Orientation where
  | horizontal
  | vertical
deriving DecidableEq, Repr

/-- The orientation a tag names: 0 is Horizontal, 1 is Vertical, every other integer is an unrecognized tag (R78). -/
def orientation (ori : Int) : Option Orientation :=
  if ori = 0 then some .horizontal else if ori = 1 then some .vertical else none

/-- `a, a+1, …, b`, the values of the loop `for v = a .. b inclusive`; none when `a > b` (R11). -/
def inclusive (a b : Int) : List Int := (List.range (b - a + 1).toNat).map (fun (i : Nat) => a + (i : Int))

end Sys2Proof.Machine
end

