-- ==== Sys2Proof/Machine/Ops.lean ====
section
/-! DEFINITION. The named operations every meaning is made of: memory, framebuffer (40_pixel part 1), display (20_memory
part 7), transport (20_memory part 4), PLOT, the ways a command ends, InvariantFault, reset, and taking the next input. -/

namespace Sys2Proof.Machine

/-! ## Memory -/

/-- The canonical form of a memory: addresses strictly rising and below 504, the number of cells (R7). An address that is
not listed reads as no value, so no entry can equal what an unlisted address reads as. -/
abbrev Memory.wf (m : Memory) : Prop := m.Pairwise (fun c d => c.1 < d.1) ∧ ∀ c ∈ m, c.1 < 504

/-- The value at an address, none where nothing is listed. -/
def Memory.read : Memory → Nat → Option Byte
  | [], _ => none
  | c :: m, a => if a = c.1 then some c.2 else Memory.read m a

/-- The memory with a value stored at an address. -/
def Memory.write : Memory → Nat → Byte → Memory
  | [], a, v => [(a, v)]
  | c :: m, a, v =>
    if a < c.1 then (a, v) :: c :: m
    else if a = c.1 then (a, v) :: m
    else c :: Memory.write m a v

/-- The key under which a store lists the cell `(x, b)`. The spec defines no linear address (R41, D22): the key is the
model's own, no rule depends on it, and every operation below is indexed by the pair (log 7). -/
def cellKey (x : Column) (b : Bank) : Nat := 6 * x.val + b.val

/-- The byte of a store at `(x, b)`, with the free value where nothing was written. -/
def CellStore.readWith (unwritten : Nat → Column → Bank → Byte) (m : CellStore) (x : Column) (b : Bank) : Byte :=
  (Memory.read m.cells (cellKey x b)).getD (unwritten m.era x b)

/-- The store with the byte at `(x, b)` replaced. -/
def CellStore.write (m : CellStore) (x : Column) (b : Bank) (v : Byte) : CellStore :=
  { m with cells := Memory.write m.cells (cellKey x b) v }

/-! ## The framebuffer -/

/-- `FB[x][b]` (R11, R20). -/
def fbRead (m : CellStore) (x : Column) (b : Bank) : Byte := m.readWith Config.unwrittenCell x b

/-- `FB[x][b]` of a state: the observation of R22, with no side effect. -/
def State.cell (s : State) (x : Column) (b : Bank) : Byte := fbRead s.fb x b

/-- Pixel `(x, y)` of a framebuffer is on: bit `y mod 8` of `FB[x][y div 8]` is 1. No point off the display is (R21). -/
def fbPixel (m : CellStore) (x y : Int) : Bool :=
  match translate x y with
  | none => false
  | some a => (fbRead m a.column a.bank).getLsbD a.bit.val

/-- Pixel `(x, y)` of a state is on (R21). -/
def State.pixel (s : State) (x y : Int) : Bool := fbPixel s.fb x y

/-- `Valid(v)` of `FB_SET`: the pixel's place, the new value of its cell, and the framebuffer that holds it (R100). -/
structure Placed where
  addr  : PixelAddr
  value : Byte
  fb    : CellStore
deriving DecidableEq, Repr

/-- `FB_SET(x, y)`: none is `Invalid`, with no mutation (R100). -/
def fbSet (x y : Int) (m : CellStore) : Option Placed :=
  match translate x y with
  | none => none
  | some a =>
    let v := fbRead m a.column a.bank ||| bitMask a.bit
    some { addr := a, value := v, fb := m.write a.column a.bank v }

/-- `FB_CLEARALL()`: zero every cell, columns outermost (R101). The engine does not use it as one step (C5). -/
def fbClearAll (m : CellStore) : CellStore :=
  (List.finRange 84).foldl (fun m x => (List.finRange 6).foldl (fun m b => m.write x b 0#8) m) m

/-! ## The display behind the transport -/

/-- `COLCMD(x)`: the byte that selects column `x` (R8, D7; log 10). -/
def colCmd (x : Column) : Byte := Config.commandBytes (BitVec.ofNat 8 (0x80 + x.val))

/-- `BANKCMD(b)`: the byte that selects bank `b` (R8, D7; log 10). -/
def bankCmd (b : Bank) : Byte := Config.commandBytes (BitVec.ofNat 8 (0x40 + b.val))

/-- What a command byte tells the display (R61). -/
inductive DisplayCommand where
  | selectColumn (x : Column)
  | selectBank (b : Bank)
  | other
deriving DecidableEq, Repr

/-- The command of a code point, in the numbering of `colCmd` and `bankCmd` (R61). -/
def codeCommand (c : Nat) : DisplayCommand :=
  if h : 0x80 ≤ c ∧ c < 0x80 + 84 then .selectColumn ⟨c - 0x80, by omega⟩
  else if h : 0x40 ≤ c ∧ c < 0x40 + 6 then .selectBank ⟨c - 0x40, by omega⟩
  else .other

/-- The display tells every `COLCMD(x)` from every `BANKCMD(b)`, from each other and from the rest (R61). -/
def displayCommand (v : Byte) : DisplayCommand := codeCommand (Config.commandBytes.symm v).toNat

/-- `DR[x][b]` (R60). -/
def Display.byte (d : Display) (x : Column) (b : Bank) : Byte := d.ram.readWith Config.unwrittenDisplay x b

/-- Everything in the display becomes unspecified: RAM, pointer, and how it takes a byte (R60, R63; log 13). -/
def Display.unknown (d : Display) : Display :=
  { ram := { cells := [], era := d.free }
    column := Config.freeColumn d.free
    bank := Config.freeBank d.free
    ready := false
    free := d.free + 1 }

/-- The pointer advance after a data write: one column on; unspecified after the last column (R62, D21; log 14). -/
def Display.advance (d : Display) : Display :=
  if h : d.column.val + 1 < 84 then { d with column := ⟨d.column.val + 1, h⟩ }
  else { d with column := Config.freeColumn d.free, bank := Config.freeBank d.free, free := d.free + 1 }

/-- A data write: the byte at the pointer, then the advance (R62). -/
def Display.dataWrite (d : Display) (v : Byte) : Display :=
  Display.advance { d with ram := d.ram.write d.column d.bank v }

/-- A command write: the two address commands move the pointer and change nothing else; nothing is known of a display
after any other command byte (R61, R63; log 13). -/
def Display.commandWrite (d : Display) (v : Byte) : Display :=
  match displayCommand v with
  | .selectColumn x => { d with column := x }
  | .selectBank b => { d with bank := b }
  | .other => d.unknown

/-- The display takes one item. Of a display that is not ready nothing is known (R61, R62, R63; log 13). -/
def Display.take (d : Display) (e : Tx) : Display :=
  if d.ready then
    if e.isData then d.dataWrite e.value else d.commandWrite e.value
  else d.unknown

/-- The end of a configuration: the display obeys R61 and R62 from here on; RAM and pointer stay as they are, that is,
unspecified (R63). -/
def Display.configured (d : Display) : Display := { d with ready := true }

/-! ## The engine's conditions -/

/-- The engine takes no further step in its command: it is halted (R156), or blocked at a write that the transport does
not complete (R57). -/
def State.stopped (s : State) : Bool := s.fault || s.outstanding.isSome

/-- One action of a running command; a stopped engine makes none (R28, R57). -/
def whenRunning (f : State → State) (s : State) : State := if s.stopped then s else f s

/-! ## The transport -/

/-- `Cmd(v)`, the item `TX(v, false)` (R11). -/
def cmd (v : Byte) : Tx := { value := v, isData := false }

/-- `Dat(v)`, the item `TX(v, true)` (R11). -/
def dat (v : Byte) : Tx := { value := v, isData := true }

/-- The transport completes writes: the trace lists them and the display takes them, in order (R12, R52, R58). -/
def deliver (es : List Tx) (s : State) : State :=
  { s with trace := s.trace ++ es, display := es.foldl Display.take s.display }

/-- The transport takes a write and never completes it: the engine is blocked there for good. `BUSY`, `FAULT`, `RSP` and
the framebuffer stay (R57); whether the byte reached the display is a free value (R179; log 5). -/
def hang (e : Tx) (s : State) : State :=
  { s with
    outstanding := some e
    display := if Config.stuckByteArrives s.free then s.display.take e else s.display
    free := s.free + 1 }

/-- `TX(v, isData)`: hand one item to the transport and block until it completes (R52, R55). -/
def tx (e : Tx) : State → State := whenRunning fun s =>
  match s.transport with
  | .live => deliver [e] s
  | .hangsAfter 0 => hang e s
  | .hangsAfter (n + 1) => { deliver [e] s with transport := .hangsAfter n }

/-- A run of `TX` calls with nothing between them, one call per byte (R54); `txAll_cons` in Laws/Ops.lean says that it is
the calls made one after another. -/
def txAll (es : List Tx) : State → State := whenRunning fun s =>
  match s.transport with
  | .live => deliver es s
  | .hangsAfter n =>
    match es.drop n with
    | [] => { deliver es s with transport := .hangsAfter (n - es.length) }
    | e :: _ => hang e { deliver (es.take n) s with transport := .hangsAfter 0 }

/-- The triplet of a pixel: column command, bank command, the cell's new byte (R51, R102, D8). -/
def sendTriplet (a : PixelAddr) (v : Byte) (s : State) : State :=
  tx (dat v) (tx (cmd (bankCmd a.bank)) (tx (cmd (colCmd a.column)) s))

/-- The framebuffer takes the new cell, then the triplet is sent (R67, D18). -/
def commitPixel (p : Placed) (s : State) : State := sendTriplet p.addr p.value { s with fb := p.fb }

/-! ## The ends of a command -/

/-- The latches between commands: unspecified (R33, U7; log 9). -/
def releaseLatches (s : State) : State :=
  { s with
    op := Config.freeOpcode s.free
    p0 := Config.freeOperand s.free 0
    p1 := Config.freeOperand s.free 1
    p2 := Config.freeOperand s.free 2
    p3 := Config.freeOperand s.free 3
    free := s.free + 1 }

/-- The command ends: the response is produced, in `RSP` and at the end of the list of responses, and `BUSY` cleared (R27,
R80, R187). -/
def finish (r : ResponseWord) : State → State := whenRunning fun s =>
  { releaseLatches s with rsp := r, responses := s.responses ++ [r], busy := false }

/-- `respond(c)` (R11, R80). -/
def respond (c : Int) : State → State := finish (response c)

/-- `raise Reject` (R154). -/
def reject : State → State := finish rejectResponse

/-- `raise InvariantFault`: the sticky `FAULT` is set and the engine halts with `BUSY = 1` and no response (R28, R156). -/
def raiseInvariantFault : State → State := whenRunning fun s => { s with fault := true, busy := true }

/-- `PLOT(x, y)`: a pixel write from inside AXISLINE or LINE (R103). -/
def plot (x y : Int) : State → State := whenRunning fun s =>
  match fbSet x y s.fb with
  | none => raiseInvariantFault s
  | some p => commitPixel p s

/-- Plot points in order. -/
def plotAll (ps : List Point) (s : State) : State := ps.foldl (fun s p => plot p.1 p.2 s) s

/-! ## Accepting a command, reset, and the next input -/

/-- Accepting a command word loads the latches and sets `BUSY` (R70, R71). -/
def accept (w : CommandWord) (s : State) : State :=
  { s with
    op := (fields w).op
    p0 := (fields w).p0
    p1 := (fields w).p1
    p2 := (fields w).p2
    p3 := (fields w).p3
    busy := true }

/-- Reset, the only way out of a halt or a hang: every register at its value of R33, the trace and the list of responses
empty, the command in progress and the outstanding write abandoned (R28, R170, R179). DESIGN CHOICE: the whole display stays as
it was, its RAM, its pointer (which R33 leaves unspecified at reset) and whether it is configured (which R172 has the host see
to after a reset); log 18. -/
def restart (plan : Transport) (s : State) : State :=
  { fb := { cells := [], era := s.free }
    op := Config.freeOpcode s.free
    p0 := Config.freeOperand s.free 0
    p1 := Config.freeOperand s.free 1
    p2 := Config.freeOperand s.free 2
    p3 := Config.freeOperand s.free 3
    busy := false
    fault := false
    rsp := Config.freeResponse s.free
    responses := []
    trace := []
    outstanding := none
    transport := plan
    display := s.display
    inputs := s.inputs
    free := s.free + 1 }

/-- The host powers and configures the display by other means than INIT (R172): afterwards the display obeys R61 and R62
with its contents unspecified (R63). -/
def bringUp (s : State) : State := { s with display := s.display.unknown.configured }

/-- What a step has to do: run a command it has accepted, settle in a state, or nothing because the engine is halted. -/
inductive Fetched where
  | run (i : Instr) (s : State)
  | settled (s : State)
  | halted
deriving DecidableEq, Repr

/-- A command word at the port of an idle engine: a command is accepted and run; a reserved word is rejected (R70, R77,
R82, R154). -/
def receive (w : CommandWord) (s : State) : Fetched :=
  match decode w with
  | .command i => .run i (accept w s)
  | .reserved _ => .settled (reject (accept w s))

/-- Take the next input. A reset is taken in every condition (R170). Otherwise a halted engine has no step (R162), a busy
one takes no word and stays where it is blocked (R27, R57, R175), and an idle one with no input waits (R171). -/
def takeInput (s : State) : Fetched :=
  match s.inputs with
  | .reset plan :: rest => .settled (restart plan { s with inputs := rest })
  | .command w :: rest =>
    if s.fault then .halted
    else if s.busy then .settled s
    else receive w { s with inputs := rest }
  | .bringUpDisplay :: rest =>
    if s.fault then .halted
    else if s.busy then .settled s
    else .settled (bringUp { s with inputs := rest })
  | [] => if s.fault then .halted else .settled s

end Sys2Proof.Machine
end

