-- ==== Sys2Proof/Machine/AxisLine.lean ====
section
/-! DEFINITION. AXISLINE: the axis-aligned line sweep engine (41_axis_line). -/

namespace Sys2Proof.Machine

/-- The points of `HSWEEP(x, y)` in order: columns `x … W−1` of row `y` (R112). -/
def hsweep (x y : Int) : List Point := (inclusive x 83).map (fun cx => (cx, y))

/-- The points of `VSWEEP(x, y)` in order: rows `y … H−1` of column `x` (R114). -/
def vsweep (x y : Int) : List Point := (inclusive y 47).map (fun cy => (x, cy))

/-- The ray of an orientation from a point (R111). -/
def ray (o : Orientation) (x y : Int) : List Point :=
  match o with
  | .horizontal => hsweep x y
  | .vertical => vsweep x y

/-- The points a valid AXISLINE draws; none for a start off the display or an unrecognized orientation (R111). -/
def axisPoints (x y ori : Int) : Option (List Point) :=
  if inX x ∧ inY y then (orientation ori).map (fun o => ray o x y) else none

/-- AXISLINE: validate, then sweep (R111). -/
def execAxisLine (x y ori : Int) (s : State) : Host.Outcome State Fault Refusal :=
  match axisPoints x y ori with
  | none => .next (respond codeLineInvalid s)
  | some ps => .next (respond codeOk (plotAll ps s))

end Sys2Proof.Machine
end

