-- ==== Sys2Proof/Machine/ClearInit.lean ====
section
/-! DEFINITION. CLEAR and INIT, the two commands on the whole display (43_clear_init). -/

namespace Sys2Proof.Machine

/-- `FB[x][b] <- 0`, then its zero byte (R140, D19). -/
def clearCell (b : Bank) (s : State) (x : Column) : State :=
  tx (dat 0#8) (whenRunning (fun s => { s with fb := s.fb.write x b 0#8 }) s)

/-- One bank of CLEAR: column 0, this bank, then the columns in increasing order (R140, D8). -/
def clearBank (s : State) (b : Bank) : State :=
  (List.finRange 84).foldl (clearCell b) (tx (cmd (bankCmd b)) (tx (cmd (colCmd 0)) s))

/-- `CLEAR_BODY()`: the banks in increasing order (R140, D9). -/
def clearBody (s : State) : State := (List.finRange 6).foldl clearBank s

/-- CLEAR: zero the framebuffer and the display (R140). -/
def execClear (s : State) : Host.Outcome State Fault Refusal :=
  .next (respond codeOk (clearBody s))

/-- `POWER_SEQ()`: it touches neither framebuffer nor trace and returns (R145); what it does to the display is not known
(log 12). -/
def powerSeq : State → State := whenRunning fun s => { s with display := s.display.unknown }

/-- The configuration phase: each byte of `INIT_SEQ` as a command write, in order; at its end the display obeys R61 and
R62 (R63, R144). -/
def configure (s : State) : State :=
  whenRunning (fun s => { s with display := s.display.configured }) (txAll (Config.initSeq.map cmd) s)

/-- INIT: power sequence, configuration, CLEAR's body (R144). -/
def execInit (s : State) : Host.Outcome State Fault Refusal :=
  .next (respond codeOk (clearBody (configure (powerSeq s))))

end Sys2Proof.Machine
end

