-- ==== Sys2Proof/Machine/Line.lean ====
section
/-! DEFINITION. LINE: the Bresenham rasterizer with its two slope regimes (42_line). -/

namespace Sys2Proof.Machine

/-- One pass of a rasterizer's loop: the point plotted in it and the error term its test reads (R124, R126). -/
structure Pass where
  x : Int
  y : Int
  e : Int
deriving DecidableEq, Repr

/-- `n` passes of the low-slope loop: plot `(x, y)`, test `E > 0`, update (R124). -/
def lowLoop (dx dy ystep : Int) : Nat → Int → Int → Int → List Pass
  | 0, _, _, _ => []
  | n + 1, x, y, e =>
    ⟨x, y, e⟩ ::
      if e > 0 then lowLoop dx dy ystep n (x + 1) (y + ystep) (e + 2 * (dy - dx))
      else lowLoop dx dy ystep n (x + 1) y (e + 2 * dy)

/-- `LOW(xa, ya, xb, yb)`: `x` drives, from `xa` to `xb` (R124). -/
def low (xa ya xb yb : Int) : List Pass :=
  let dx := xb - xa
  let dy := yb - ya
  let ystep := if dy < 0 then -1 else 1
  let dy := if dy < 0 then -dy else dy
  lowLoop dx dy ystep (xb - xa + 1).toNat xa ya (2 * dy - dx)

/-- `n` passes of the high-slope loop: plot `(x, y)`, test `E > 0`, update (R126). -/
def highLoop (dx dy xstep : Int) : Nat → Int → Int → Int → List Pass
  | 0, _, _, _ => []
  | n + 1, x, y, e =>
    ⟨x, y, e⟩ ::
      if e > 0 then highLoop dx dy xstep n (x + xstep) (y + 1) (e + 2 * (dx - dy))
      else highLoop dx dy xstep n x (y + 1) (e + 2 * dx)

/-- `HIGH(xa, ya, xb, yb)`: `y` drives, from `ya` to `yb` (R126). -/
def high (xa ya xb yb : Int) : List Pass :=
  let dx := xb - xa
  let dy := yb - ya
  let xstep := if dx < 0 then -1 else 1
  let dx := if dx < 0 then -dx else dx
  highLoop dx dy xstep (yb - ya + 1).toNat xa ya (2 * dx - dy)

/-- The regime test: the line is shallow, `|dy0| < |dx0|` (R122). -/
abbrev shallow (x0 y0 x1 y1 : Int) : Prop := (y1 - y0).natAbs < (x1 - x0).natAbs

/-- The passes of a line: regime, endpoint order, rasterizer (R121, R122, R123). -/
def linePasses (x0 y0 x1 y1 : Int) : List Pass :=
  if shallow x0 y0 x1 y1 then
    if x0 > x1 then low x1 y1 x0 y0 else low x0 y0 x1 y1
  else
    if y0 > y1 then high x1 y1 x0 y0 else high x0 y0 x1 y1

/-- The points of a list of passes, in plotting order. -/
def passPoints (l : List Pass) : List Point := l.map (fun p => (p.x, p.y))

/-- The points a valid LINE draws; none when a coordinate is out of range (R121). -/
def linePoints (x0 y0 x1 y1 : Int) : Option (List Point) :=
  if inX x0 ∧ inY y0 ∧ inX x1 ∧ inY y1 then some (passPoints (linePasses x0 y0 x1 y1)) else none

/-- LINE: validate, then rasterize (R121). -/
def execLine (x0 y0 x1 y1 : Int) (s : State) : Host.Outcome State Fault Refusal :=
  match linePoints x0 y0 x1 y1 with
  | none => .next (respond codeLineInvalid s)
  | some ps => .next (respond codeOk (plotAll ps s))

end Sys2Proof.Machine
end

