-- ==== Sys2Proof/Machine/Pixel.lean ====
section
/-! DEFINITION. SETPIXEL (40_pixel R102). -/

namespace Sys2Proof.Machine

/-- SETPIXEL: set one pixel and send its cell, or answer 1 (R102). -/
def execSetPixel (x y : Int) (s : State) : Host.Outcome State Fault Refusal :=
  match fbSet x y s.fb with
  | none => .next (respond codePixelInvalid s)
  | some p => .next (respond codeOk (whenRunning (commitPixel p) s))

end Sys2Proof.Machine
end

