-- ==== Sys2Proof/Machine/Step.lean ====
section
/-! DEFINITION. One step of the machine: take the next input and run the command it brings to completion, or to the write
that the transport never completes (00_scope R6; log 1). -/

namespace Sys2Proof.Machine

/-- One step (R70, R170, R171, R175). -/
def step (s : State) : Host.Outcome State Fault Refusal :=
  match takeInput s with
  | .run i t => exec i t
  | .settled t => .next t
  | .halted => .fault .engineHalted

/-- The state with a command word, numbered as the opcode table numbers its rows, at the head of what the host does next
(R70; log 17, log 21). -/
def State.withFetchWord (s : State) (nbits w : Nat) : State :=
  { s with inputs := .command (tableWord nbits w) :: s.inputs }

end Sys2Proof.Machine
end

