-- ==== Sys2Proof/Machine/Assembler.lean ====
section
/-! DEFINITION. The assembler: the command text protocol (30_encoding R86 to R91), as a function from one line to the
command word it assembles to, or none when the line is rejected and the engine is never invoked (R90). -/

namespace Sys2Proof.Machine

/-- The delimiters: space, tab and comma (R87). -/
def isDelimiter (c : Char) : Bool := c == ' ' || c == '\t' || c == ','

/-- The tokens of a line, given the token being read, backwards: maximal runs of other characters, with no empty tokens
(R87, D23). -/
def tokensFrom : List Char → List Char → List (List Char)
  | acc, [] => if acc.isEmpty then [] else [acc.reverse]
  | acc, c :: cs =>
    if isDelimiter c then
      if acc.isEmpty then tokensFrom [] cs else acc.reverse :: tokensFrom [] cs
    else tokensFrom (c :: acc) cs

/-- The tokens of a line (R87). -/
def tokens (line : List Char) : List (List Char) := tokensFrom [] line

/-- The value of a decimal digit. -/
def digit (c : Char) : Option Nat :=
  if 48 ≤ c.toNat ∧ c.toNat ≤ 57 then some (c.toNat - 48) else none

/-- The value of a run of decimal digits read on from `n`; none if a character is no digit. -/
def digitsFrom : Nat → List Char → Option Nat
  | n, [] => some n
  | n, c :: cs =>
    match digit c with
    | none => none
    | some d => digitsFrom (10 * n + d) cs

/-- One or more digits. -/
def natural (cs : List Char) : Option Nat := if cs.isEmpty then none else digitsFrom 0 cs

/-- An argument: an optional `-` followed by one or more digits (R89). -/
def integer (cs : List Char) : Option Int :=
  match cs with
  | [] => none
  | c :: ds => if c = '-' then (natural ds).map (fun (m : Nat) => -(m : Int)) else (natural cs).map (fun (m : Nat) => (m : Int))

/-- An argument whose value can be encoded in 16 bits (R89, D2). -/
def argument (cs : List Char) : Option Int :=
  match integer cs with
  | none => none
  | some n => if Encodable n then some n else none

/-- All argument tokens, or none if one of them is rejected. -/
def arguments : List (List Char) → Option (List Int)
  | [] => some []
  | t :: ts =>
    match argument t, arguments ts with
    | some n, some ns => some (n :: ns)
    | _, _ => none

/-- The command table: the names, matched exactly, with their argument counts (R87, R88, D23). -/
def commandOf (name : List Char) (args : List Int) : Option Instr :=
  if name = ['S', 'E', 'T', 'P', 'I', 'X', 'E', 'L'] then
    match args with
    | [x, y] => some (.setPixel x y)
    | _ => none
  else if name = ['A', 'X', 'I', 'S', 'L', 'I', 'N', 'E'] then
    match args with
    | [x, y, ori] => some (.axisLine x y ori)
    | _ => none
  else if name = ['L', 'I', 'N', 'E'] then
    match args with
    | [x0, y0, x1, y1] => some (.line x0 y0 x1 y1)
    | _ => none
  else if name = ['C', 'L', 'E', 'A', 'R'] then
    match args with
    | [] => some .clear
    | _ => none
  else if name = ['I', 'N', 'I', 'T'] then
    match args with
    | [] => some .init
    | _ => none
  else none

/-- The command a line spells; none for a line that is rejected (R90). A line with no token spells none (log 22). -/
def parseLine (line : List Char) : Option Instr :=
  match tokens line with
  | [] => none
  | name :: ts =>
    match arguments ts with
    | none => none
    | some args => commandOf name args

/-- The command word a line assembles to (R88, R90). -/
def assemble (line : List Char) : Option CommandWord := (parseLine line).map encode

end Sys2Proof.Machine
end

