-- ==== Sys2Proof/Machine/BigStep.lean ====
section
/-! DEFINITION. The spec's big-step description of a command (00_scope R6 (a)): a total function from framebuffer and
command to framebuffer, result code and the ordered list of transport writes. The machine runs the small-step description;
the obligations compare the two. -/

namespace Sys2Proof.Machine

/-- What a command does when the transport completes every write (R6). -/
structure BigStep where
  fb     : CellStore
  code   : Int
  writes : List Tx
deriving DecidableEq, Repr

/-- The three writes of a pixel (R102). -/
def triplet (a : PixelAddr) (v : Byte) : List Tx := [cmd (colCmd a.column), cmd (bankCmd a.bank), dat v]

/-- Drawing points in order: the framebuffer afterwards and the triplets sent. A point off the display draws nothing;
no command has one (R113, R132). -/
def drawBig : List Point → CellStore → CellStore × List Tx
  | [], m => (m, [])
  | q :: ps, m =>
    match fbSet q.1 q.2 m with
    | none => drawBig ps m
    | some p => ((drawBig ps p.fb).1, triplet p.addr p.value ++ (drawBig ps p.fb).2)

/-- The points a command draws; none when it answers a failure code, and none for CLEAR and INIT (R102, R111, R121). -/
def pointsOf : Instr → List Point
  | .setPixel x y => if inX x ∧ inY y then [(x, y)] else []
  | .axisLine x y ori => (axisPoints x y ori).getD []
  | .line x0 y0 x1 y1 => (linePoints x0 y0 x1 y1).getD []
  | .clear => []
  | .init => []

/-- The command's operands are valid (R102, R111, R121, R140, R144). -/
def validOperands : Instr → Bool
  | .setPixel x y => decide (inX x ∧ inY y)
  | .axisLine x y ori => decide (inX x ∧ inY y ∧ (ori = 0 ∨ ori = 1))
  | .line x0 y0 x1 y1 => decide (inX x0 ∧ inY y0 ∧ inX x1 ∧ inY y1)
  | .clear => true
  | .init => true

/-- The result code of a command (R81). -/
def resultCode (i : Instr) : Int :=
  if validOperands i then 0
  else match i with
    | .setPixel _ _ => 1
    | _ => -1

/-- The 86 writes of one bank of CLEAR (R140). -/
def clearBankWrites (b : Bank) : List Tx := cmd (colCmd 0) :: cmd (bankCmd b) :: List.replicate 84 (dat 0#8)

/-- The 516 writes of CLEAR (R140). -/
@[irreducible] def clearWrites : List Tx := (List.finRange 6).flatMap clearBankWrites

/-- The framebuffer CLEAR leaves: every cell written with 0, bank by bank (R140). -/
@[irreducible] def clearBig (m : CellStore) : CellStore :=
  (List.finRange 6).foldl (fun m b => (List.finRange 84).foldl (fun m x => m.write x b 0#8) m) m

/-- The big step of a command (R6 (a)). -/
def bigStep (i : Instr) (m : CellStore) : BigStep :=
  match i with
  | .clear => { fb := clearBig m, code := 0, writes := clearWrites }
  | .init => { fb := clearBig m, code := 0, writes := Config.initSeq.map cmd ++ clearWrites }
  | i => { fb := (drawBig (pointsOf i) m).1, code := resultCode i, writes := (drawBig (pointsOf i) m).2 }

/-- The result of a run: the framebuffer, the list of responses and the transport trace (R187). -/
structure RunResult where
  fb        : CellStore
  responses : List ResponseWord
  trace     : List Tx
deriving DecidableEq, Repr

/-- The run of one command word, when the transport completes every write (R6, R80, R154). -/
def wordBig (w : CommandWord) (m : CellStore) : RunResult :=
  match decode w with
  | .command i => { fb := (bigStep i m).fb, responses := [response (bigStep i m).code], trace := (bigStep i m).writes }
  | .reserved _ => { fb := m, responses := [rejectResponse], trace := [] }

/-- The run of a program, a finite list of command words (R187). -/
def programBig : List CommandWord → CellStore → RunResult
  | [], m => { fb := m, responses := [], trace := [] }
  | w :: ws, m =>
    let first := wordBig w m
    let rest := programBig ws first.fb
    { fb := rest.fb, responses := first.responses ++ rest.responses, trace := first.trace ++ rest.trace }

end Sys2Proof.Machine
end

