-- ==== Sys2Proof/Safety.lean ====
section
/-! DEFINITION. The terms claims are stated in: the conditions of the engine and of the transport, the end of a command,
the mirror property, the result of a run, decimal numbers, and the invariants of the state (70 R186, R187; 20_memory R64). -/

namespace Sys2Proof.Machine

/-- A command has just been accepted and can run: `BUSY = 1`, not halted, no write outstanding (R27, R28, R55). -/
def State.running (s : State) : Prop := s.busy = true ∧ s.fault = false ∧ s.outstanding = none

/-- The engine is idle and will accept a command word (R27, R186 (a), R187). -/
def State.idle (s : State) : Prop := s.busy = false ∧ s.fault = false ∧ s.outstanding = none

/-- The transport completes the next `n` writes; `Transport.live` completes every one (premise `TransportLive`, D20). -/
def Transport.allows (p : Transport) (n : Nat) : Prop :=
  match p with
  | .live => True
  | .hangsAfter m => n ≤ m

/-- What the transport still completes after `n` completed writes. -/
def Transport.after (p : Transport) (n : Nat) : Transport :=
  match p with
  | .live => .live
  | .hangsAfter m => .hangsAfter (m - n)

/-- The frame of a command that runs to its end with code `c` having sent `ws`: the response is out, last in the list of
responses, and `BUSY` cleared, the trace is longer by exactly `ws`, and `FAULT`, the port to the outside and the transport are as before, the transport's plan
less the writes completed. Framebuffer and display are said beside it; the latches are unspecified (U7). -/
structure Ended (c : Int) (ws : List Tx) (s t : State) : Prop where
  rsp         : t.rsp = response c
  responses   : t.responses = s.responses ++ [response c]
  busy        : t.busy = false
  fault       : t.fault = s.fault
  outstanding : t.outstanding = none
  trace       : t.trace = s.trace ++ ws
  transport   : t.transport = s.transport.after ws.length
  inputs      : t.inputs = s.inputs

/-- The frame of a command that the transport stops before its end: it has completed `ws` and was handed `e`, the engine
stays busy with its latches and `RSP` as they were, and it is neither halted nor finished (R24, R57). -/
structure Blocked (ws : List Tx) (e : Tx) (s t : State) : Prop where
  busy        : t.busy = s.busy
  fault       : t.fault = s.fault
  rsp         : t.rsp = s.rsp
  responses   : t.responses = s.responses
  outstanding : t.outstanding = some e
  trace       : t.trace = s.trace ++ ws
  inputs      : t.inputs = s.inputs
  op          : t.op = s.op
  p0          : t.p0 = s.p0
  p1          : t.p1 = s.p1
  p2          : t.p2 = s.p2
  p3          : t.p3 = s.p3

/-- The display RAM holds the framebuffer, byte for byte, and the display obeys R61 and R62 (R64). -/
def State.mirrored (s : State) : Prop :=
  s.display.ready = true ∧ ∀ (x : Column) (b : Bank), s.display.byte x b = s.cell x b

/-- INVARIANT: whenever the engine is not busy, the display mirrors the framebuffer (R64). -/
def State.mirrorInv (s : State) : Prop := s.busy = false → s.mirrored

/-- INVARIANT: both stores are in canonical form (log 7). -/
def State.memoryCanonical (s : State) : Prop := Memory.wf s.fb.cells ∧ Memory.wf s.display.ram.cells

/-- INVARIANT: a halted or blocked engine is busy, and it is not both (R28, R57); `RSP` holds the last response since reset,
if there is one (R29). -/
def State.controlConsistent (s : State) : Prop :=
  (s.fault = true → s.busy = true ∧ s.outstanding = none) ∧ (s.outstanding.isSome = true → s.busy = true) ∧
    (s.responses ≠ [] → s.responses.getLast? = some s.rsp)

/-- The result of a run: none while it has not ended, that is, while a command waits or runs, or the engine is blocked or
halted (R187). Responses and trace count from reset (R12; log 27). -/
def State.runResult (s : State) : Option RunResult :=
  if s.busy = false ∧ s.fault = false ∧ s.outstanding = none ∧ s.inputs = [] then
    some { fb := s.fb, responses := s.responses, trace := s.trace }
  else none

/-- The next input is not a reset and does not bring the display up anew: a command word, or none. -/
def State.hostKeepsDisplay (s : State) : Prop :=
  s.inputs = [] ∨ ∃ w rest, s.inputs = .command w :: rest

/-- The command zeroes the whole framebuffer (R140, R144). -/
def clearsDisplay (i : Instr) : Prop := i = .clear ∨ i = .init

/-- The writes a command sends from a framebuffer when the transport completes every one (R6). -/
def writesOf (i : Instr) (m : CellStore) : List Tx := (bigStep i m).writes

/-- Rounded quotient of R136: `i·q/p` to the nearest integer, an exact half rounded down. -/
def roundedStep (p q i : Int) : Int := (2 * i * q + p - 1) / (2 * p)

/-- The character of a decimal digit (R89). -/
def decimalDigit (d : Fin 10) : Char := Char.ofNat (48 + d.val)

/-- The number that decimal digits spell, most significant first (R89). -/
def decimalValue (ds : List (Fin 10)) : Int := ds.foldl (fun v d => 10 * v + (d.val : Int)) 0

end Sys2Proof.Machine
end

