-- ==== Sys2Proof/Certificates/Slice0/Obligations.lean ====
section
/-! DEFINITION. The statements for the provers, one definition each; OBLIGATIONS.json lists them. Each docstring names the
rule of the spec it formalises. -/

open Sys2Proof Sys2Proof.Machine

/-! ## The command word -/

/-- The decoder reads every word as rule R82 says: the five shapes with their operands, and every other word reserved. -/
def Obligations.DecodeFollowsPseudocode : Prop :=
  ∀ w : CommandWord,
    let op := w.extractLsb' 64 8
    let p0 := w.extractLsb' 48 16
    let p1 := w.extractLsb' 32 16
    let p2 := w.extractLsb' 16 16
    let p3 := w.extractLsb' 0 16
    (op = 1#8 ∧ p2 = 0#16 ∧ p3 = 0#16 → decode w = .command (.setPixel p0.toInt p1.toInt)) ∧
    (op = 2#8 ∧ p3 = 0#16 → decode w = .command (.axisLine p0.toInt p1.toInt p2.toInt)) ∧
    (op = 3#8 → decode w = .command (.line p0.toInt p1.toInt p2.toInt p3.toInt)) ∧
    (op = 4#8 ∧ p0 = 0#16 ∧ p1 = 0#16 ∧ p2 = 0#16 ∧ p3 = 0#16 → decode w = .command .clear) ∧
    (op = 5#8 ∧ p0 = 0#16 ∧ p1 = 0#16 ∧ p2 = 0#16 ∧ p3 = 0#16 → decode w = .command .init) ∧
    (¬ (op = 1#8 ∧ p2 = 0#16 ∧ p3 = 0#16) → ¬ (op = 2#8 ∧ p3 = 0#16) → op ≠ 3#8 →
      ¬ ((op = 4#8 ∨ op = 5#8) ∧ p0 = 0#16 ∧ p1 = 0#16 ∧ p2 = 0#16 ∧ p3 = 0#16) → ∃ why, decode w = .reserved why)

/-- A word decodes to a mnemonic exactly when it selects that row of R74 by match and mask, and the rows are disjoint. -/
def Obligations.DecodeSelectsTableRow : Prop :=
  ∀ w : CommandWord,
    ((∃ x y, decode w = .command (.setPixel x y)) ↔ w &&& 0xFF00000000FFFFFFFF#72 = 0x010000000000000000#72) ∧
    ((∃ x y ori, decode w = .command (.axisLine x y ori)) ↔ w &&& 0xFF000000000000FFFF#72 = 0x020000000000000000#72) ∧
    ((∃ x0 y0 x1 y1, decode w = .command (.line x0 y0 x1 y1)) ↔
      w &&& 0xFF0000000000000000#72 = 0x030000000000000000#72) ∧
    (decode w = .command .clear ↔ w &&& 0xFFFFFFFFFFFFFFFFFF#72 = 0x040000000000000000#72) ∧
    (decode w = .command .init ↔ w &&& 0xFFFFFFFFFFFFFFFFFF#72 = 0x050000000000000000#72)

/-- Decode and encode agree, one direction: the word of a well-formed command decodes to it, with every operand at every
value its field admits. -/
def Obligations.DecodeInvertsEncode : Prop := ∀ i : Instr, i.wellFormed = true → decode (encode i) = .command i

/-- Decode and encode agree, the other direction: a word that decodes to a command is that command's one word (R77: every
word matches one row or is rejected). -/
def Obligations.EncodeInvertsDecode : Prop :=
  ∀ (w : CommandWord) (i : Instr), decode w = .command i → i.wellFormed = true ∧ encode i = w

/-- Words written out from the encodings of R83 decode to the commands they stand for. -/
def Obligations.WordsOfTheSpecDecode : Prop :=
  decode 0x010005000500000000#72 = .command (.setPixel 5 5) ∧
  decode 0x01FFFF000000000000#72 = .command (.setPixel (-1) 0) ∧
  decode 0x020005000500020000#72 = .command (.axisLine 5 5 2) ∧
  decode 0x03000A00000000000A#72 = .command (.line 10 0 0 10) ∧
  decode 0x040000000000000000#72 = .command .clear ∧
  decode 0x050000000000000000#72 = .command .init ∧
  decode 0x010005000500010000#72 = .reserved (.mustBeZero 1#8) ∧
  decode 0x060000000000000000#72 = .reserved (.opcode 6#8)

/-- The responses of R80 and R81 as 17-bit words, and how the host reads them back. -/
def Obligations.ResponseWords : Prop :=
  response codeOk = 0x00000#17 ∧ response codePixelInvalid = 0x00001#17 ∧ response codeLineInvalid = 0x0FFFF#17 ∧
  rejectResponse = 0x10000#17 ∧
  responseCode (response codeLineInvalid) = -1 ∧ responseReject (response codeLineInvalid) = false ∧
  responseReject rejectResponse = true

/-! ## A step -/

/-- A step of an idle engine with a command word at the port accepts it (latches loaded, `BUSY` set, nothing else changed
but that the word has been taken) and runs the decoded command there (R70, R71). That one step runs the whole command, and that
the word comes from a list in State, is the model's choice (log 1, log 17). -/
def Obligations.StepRunsDecodedCommand : Prop :=
  ∀ (s : State) (w : CommandWord) (rest : List Input) (i : Instr),
    s.idle → s.inputs = .command w :: rest → decode w = .command i →
      step s = exec i
        { s with
          op := w.extractLsb' 64 8
          p0 := w.extractLsb' 48 16
          p1 := w.extractLsb' 32 16
          p2 := w.extractLsb' 16 16
          p3 := w.extractLsb' 0 16
          busy := true
          inputs := rest }

/-- Placing a word of the opcode table where an idle engine takes its next one makes the next step run that command (model's
own interface, log 17 and log 21). -/
def Obligations.StepRunsFetchWord : Prop :=
  ∀ (s : State) (nbits w : Nat) (i : Instr),
    s.idle → decodeTableWord nbits w = some i → step (s.withFetchWord nbits w) = exec i (accept (tableWord nbits w) s)

/-- A word that spells no command is rejected: the response is `REJECT = 1`, `CODE = 0`, `BUSY` is cleared, `FAULT` is not set,
and framebuffer, trace, display and transport are untouched (R154). That State keeps the list of responses, to which this one is
added, and the list of inputs, from which the word is taken, is the model's choice (log 27, log 17). -/
def Obligations.ReservedWordIsRejected : Prop :=
  ∀ (s : State) (w : CommandWord) (rest : List Input),
    s.idle → s.inputs = .command w :: rest → (∀ i, decode w ≠ .command i) →
      ∃ t, step s = .next t ∧ t.rsp = 0x10000#17 ∧ t.responses = s.responses ++ [0x10000#17] ∧ t.busy = false ∧
        t.fault = false ∧ t.outstanding = none ∧ t.fb = s.fb ∧ t.trace = s.trace ∧ t.display = s.display ∧
        t.transport = s.transport ∧ t.inputs = rest

/-- Decode comes first: a SETPIXEL or AXISLINE word with a nonzero must-be-zero field is rejected, whatever its operands
(R160). -/
def Obligations.DecodePrecedesValidation : Prop :=
  ∀ (s : State) (w : CommandWord) (rest : List Input),
    s.idle → s.inputs = .command w :: rest →
    (w.extractLsb' 64 8 = 1#8 ∧ (w.extractLsb' 16 16 ≠ 0#16 ∨ w.extractLsb' 0 16 ≠ 0#16)) ∨
      (w.extractLsb' 64 8 = 2#8 ∧ w.extractLsb' 0 16 ≠ 0#16) →
      ∃ t, step s = .next t ∧ t.rsp = 0x10000#17 ∧ t.busy = false ∧ t.fb = s.fb ∧ t.trace = s.trace

/-- While `BUSY = 1` the port takes no word (R27, R175). That the step then answers the very same state is the model's choice:
a busy engine between two steps is blocked and stays as it is (log 16), also in a state with no write outstanding, which no step
of an idle engine reaches (log 1), and the word stays with the host, in the list of inputs (log 17). -/
def Obligations.BusyPortTakesNoWord : Prop :=
  ∀ (s : State) (w : CommandWord) (rest : List Input),
    s.busy = true → s.fault = false → s.inputs = .command w :: rest → step s = .next s

/-- An engine that is not halted and has no input stays as it is, after reset as at any other time. R171 says that the idle
engine waits and runs no command by itself; that its step answers the very same state is the model's choice (log 19), and so it
is for a busy engine (log 16). -/
def Obligations.IdleEngineWaits : Prop :=
  (∀ s : State, s.fault = false → s.inputs = [] → step s = .next s) ∧ step State.reset = .next State.reset

/-- After InvariantFault nothing happens until reset, and reset clears it (R28, R156, R162). The form in which nothing happens,
that the step of a halted engine answers the fault `engineHalted`, is the model's choice (log 15). -/
def Obligations.HaltedUntilReset : Prop :=
  ∀ s : State, s.fault = true →
    ((∀ plan rest, s.inputs ≠ .reset plan :: rest) → step s = .fault .engineHalted) ∧
    (∀ plan rest, s.inputs = .reset plan :: rest → ∃ t, step s = .next t ∧ t.fault = false ∧ t.busy = false)

/-- Reset, taken in every condition: the framebuffer is unspecified again, `BUSY` and `FAULT` are 0, the trace and the list
of responses are empty, the command in progress and its outstanding write are abandoned (R170). That the display stays as it
was, pointer and configuration too, is the model's choice (log 18), and so is the list of responses (log 27). -/
def Obligations.ResetTakenInEveryCondition : Prop :=
  ∀ (s : State) (plan : Transport) (rest : List Input), s.inputs = .reset plan :: rest →
    ∃ t, step s = .next t ∧ t.fb.cells = [] ∧ t.busy = false ∧ t.fault = false ∧ t.trace = [] ∧ t.responses = [] ∧
      t.outstanding = none ∧ t.display = s.display

/-- The values of the reset table: framebuffer and display RAM hold nothing yet, `BUSY` and `FAULT` are 0, the trace is empty,
and the engine is idle (R33, R171); the list of responses is empty too (log 27). -/
def Obligations.ResetValues : Prop :=
  State.reset.busy = false ∧ State.reset.fault = false ∧ State.reset.trace = [] ∧ State.reset.responses = [] ∧
    State.reset.fb.cells = [] ∧
    State.reset.display.ram.cells = [] ∧ State.reset.idle

/-- Bringing the display up by other means than INIT touches nothing of the engine, and the display is then ready with
nothing known of its RAM (R172; the form of the event is the model's, log 13). -/
def Obligations.BringUpTouchesDisplayOnly : Prop :=
  ∀ (s : State) (rest : List Input), s.idle → s.inputs = .bringUpDisplay :: rest →
    ∃ d, step s = .next { s with inputs := rest, display := d } ∧ d.ready = true ∧ d.ram.cells = []

/-! ## Translator, framebuffer primitives -/

/-- The translator answers for exactly the points of the display, and with the column passed through, the bank with
`8·bank ≤ y < 8·bank + 8`, and the bit the remainder (R42). -/
def Obligations.TranslatorFollowsDivision : Prop :=
  ∀ x y : Int,
    (inX x ∧ inY y → ∃ a, translate x y = some a ∧ (a.column.val : Int) = x ∧ (a.bank.val : Int) = y / 8 ∧
      8 * (a.bank.val : Int) ≤ y ∧ y < 8 * (a.bank.val : Int) + 8 ∧ (a.bit.val : Int) = y % 8) ∧
    (¬ (inX x ∧ inY y) → translate x y = none)

/-- Pixel `(x, y)` is bit `y mod 8` of cell `[x][y div 8]`; every pixel of the display has exactly one bit and every bit is a
pixel (R21). -/
def Obligations.PixelsAndBitsCorrespond : Prop :=
  (∀ (s : State) (x y : Int) (a : PixelAddr), translate x y = some a →
    (a.column.val : Int) = x ∧ (a.bank.val : Int) = y / 8 ∧ (a.bit.val : Int) = y % 8 ∧
      s.pixel x y = (s.cell a.column a.bank).getLsbD a.bit.val) ∧
  (∀ x y : Int, inX x → inY y → ∃ a, translate x y = some a) ∧
  (∀ a : PixelAddr, ∃ x y : Int, inX x ∧ inY y ∧ translate x y = some a ∧
    ∀ x' y', translate x' y' = some a → x' = x ∧ y' = y)

/-- `FB_SET`: on a pixel of the display the one addressed cell is ORed with the pixel's mask, its new value reported, and no
other cell changes; off the display the answer is Invalid (R100). -/
def Obligations.FbSetWritesOneCell : Prop :=
  ∀ (m : CellStore) (x y : Int),
    (¬ (inX x ∧ inY y) → fbSet x y m = none) ∧
    ∀ a, translate x y = some a →
      ∃ p, fbSet x y m = some p ∧ p.addr = a ∧ p.value = fbRead m a.column a.bank ||| (1#8 <<< a.bit.val) ∧
        fbRead p.fb a.column a.bank = p.value ∧ p.value ≠ 0#8 ∧
        ∀ (c : Column) (b : Bank), ¬ (c = a.column ∧ b = a.bank) → fbRead p.fb c b = fbRead m c b

/-- `FB_CLEARALL` zeroes every cell, and CLEAR's own order of writes, as its big step has it, ends with the same framebuffer
(R101). -/
def Obligations.ClearAllZeroesEveryCell : Prop :=
  ∀ (m : CellStore) (c : Column) (b : Bank),
    fbRead (fbClearAll m) c b = 0#8 ∧ fbRead (clearBig m) c b = fbRead (fbClearAll m) c b

/-! ## SETPIXEL -/

/-- SETPIXEL on a pixel of the display: it completes with code 0; the addressed cell is its old value ORed with the pixel's
mask, every other cell is unchanged; the trace grows by column command, bank command and the cell's new byte, in this order,
and the display takes exactly these (R102). -/
def Obligations.SetPixelSetsAndSends : Prop :=
  ∀ (s : State) (x y : Int) (a : PixelAddr),
    s.running → translate x y = some a → s.transport.allows 3 →
      ∃ t, exec (.setPixel x y) s = .next t ∧
        t.cell a.column a.bank = s.cell a.column a.bank ||| bitMask a.bit ∧
        (∀ (c : Column) (b : Bank), ¬ (c = a.column ∧ b = a.bank) → t.cell c b = s.cell c b) ∧
        Ended 0 [cmd (colCmd a.column), cmd (bankCmd a.bank), dat (t.cell a.column a.bank)] s t ∧
        t.display = ((s.display.take (cmd (colCmd a.column))).take (cmd (bankCmd a.bank))).take
          (dat (t.cell a.column a.bank))

/-- SETPIXEL on a pixel of the display answers 0 and has its pixel on afterwards; the byte sent as data is the cell's new
value, last of a triplet; the other 4031 pixels are as they were. Off the display it answers 1 and no cell changes (R104). -/
def Obligations.SetPixelChangesOnePixel : Prop :=
  (∀ (s : State) (x y : Int), s.running → inX x → inY y → s.transport.allows 3 →
    ∃ t a, exec (.setPixel x y) s = .next t ∧ t.rsp = response 0 ∧ t.busy = false ∧ t.pixel x y = true ∧
      translate x y = some a ∧
      t.trace = s.trace ++ [cmd (colCmd a.column), cmd (bankCmd a.bank), dat (t.cell a.column a.bank)] ∧
      ∀ x' y' : Int, ¬ (x' = x ∧ y' = y) → t.pixel x' y' = s.pixel x' y') ∧
  (∀ (s : State) (x y : Int), s.running → ¬ (inX x ∧ inY y) →
    ∃ t, exec (.setPixel x y) s = .next t ∧ t.rsp = response 1 ∧ ∀ c b, t.cell c b = s.cell c b)

/-- Plotting a pixel that is already on changes no cell, and sends the triplet again with the unchanged byte (R48). -/
def Obligations.SetPixelAgainResends : Prop :=
  ∀ (s : State) (x y : Int) (a : PixelAddr),
    s.running → translate x y = some a → s.pixel x y = true → s.transport.allows 3 →
      ∃ t, exec (.setPixel x y) s = .next t ∧ (∀ c b, t.cell c b = s.cell c b) ∧
        t.trace = s.trace ++ [cmd (colCmd a.column), cmd (bankCmd a.bank), dat (s.cell a.column a.bank)]

/-! ## Failing commands -/

/-- A command with an invalid operand ends with its failure code, 1 for SETPIXEL and −1 for AXISLINE (also for an
unrecognized orientation) and LINE, and changes neither framebuffer nor trace nor display, under every plan of the transport
(R150, R152). -/
def Obligations.FailingCommandsHaveNoEffect : Prop :=
  ∀ s : State, s.running →
    (∀ x y : Int, ¬ (inX x ∧ inY y) →
      ∃ t, exec (.setPixel x y) s = .next t ∧ Ended 1 [] s t ∧ t.fb = s.fb ∧ t.display = s.display) ∧
    (∀ x y ori : Int, ¬ (inX x ∧ inY y ∧ (ori = 0 ∨ ori = 1)) →
      ∃ t, exec (.axisLine x y ori) s = .next t ∧ Ended (-1) [] s t ∧ t.fb = s.fb ∧ t.display = s.display) ∧
    (∀ x0 y0 x1 y1 : Int, ¬ (inX x0 ∧ inY y0 ∧ inX x1 ∧ inY y1) →
      ∃ t, exec (.line x0 y0 x1 y1) s = .next t ∧ Ended (-1) [] s t ∧ t.fb = s.fb ∧ t.display = s.display)

/-! ## AXISLINE -/

/-- Horizontal AXISLINE: it completes with code 0 and turns on exactly the pixels of row `y` from column `x` to the right
edge; cells of other banks and to the left are unchanged; `W − x` pixels in increasing column order, each with its full
triplet (R112). -/
def Obligations.HorizontalRayReachesRightEdge : Prop :=
  ∀ (s : State) (x y : Int), s.running → inX x → inY y → s.transport.allows (3 * (84 - x).toNat) →
    ∃ t, exec (.axisLine x y 0) s = .next t ∧
      (∀ x' y' : Int, inX x' → inY y' → (t.pixel x' y' = true ↔ s.pixel x' y' = true ∨ (y' = y ∧ x ≤ x'))) ∧
      (∀ (c : Column) (b : Bank), (c.val : Int) < x ∨ (b.val : Int) ≠ y / 8 → t.cell c b = s.cell c b) ∧
      ∃ ws, Ended 0 ws s t ∧ ws.length = 3 * (84 - x).toNat ∧ t.display = ws.foldl Display.take s.display ∧
        ∀ (c : Column) (b : Bank), x ≤ (c.val : Int) → (b.val : Int) = y / 8 →
          (ws.drop (3 * ((c.val : Int) - x).toNat)).take 3 = [cmd (colCmd c), cmd (bankCmd b), dat (t.cell c b)]

/-- Vertical AXISLINE: it completes with code 0 and turns on exactly the pixels of column `x` from row `y` to the bottom
edge; other columns and the banks above are unchanged; `H − y` pixels in increasing row order, each with its full triplet,
whose data byte is the cell with the rows drawn so far: it grows bit by bit within a bank (R114). -/
def Obligations.VerticalRayReachesBottomEdge : Prop :=
  ∀ (s : State) (x y : Int), s.running → inX x → inY y → s.transport.allows (3 * (48 - y).toNat) →
    ∃ t, exec (.axisLine x y 1) s = .next t ∧
      (∀ x' y' : Int, inX x' → inY y' → (t.pixel x' y' = true ↔ s.pixel x' y' = true ∨ (x' = x ∧ y ≤ y'))) ∧
      (∀ (c : Column) (b : Bank), (c.val : Int) ≠ x ∨ (b.val : Int) < y / 8 → t.cell c b = s.cell c b) ∧
      ∃ ws, Ended 0 ws s t ∧ ws.length = 3 * (48 - y).toNat ∧ t.display = ws.foldl Display.take s.display ∧
        ∀ (cy : Int) (a : PixelAddr), y ≤ cy → translate x cy = some a →
          ∃ v : Byte, (ws.drop (3 * (cy - y).toNat)).take 3 = [cmd (colCmd a.column), cmd (bankCmd a.bank), dat v] ∧
            ∀ j : BitNo, v.getLsbD j.val =
              (s.pixel x (8 * a.bank.val + j.val) || decide (y ≤ 8 * a.bank.val + j.val ∧ 8 * a.bank.val + j.val ≤ cy))

/-! ## LINE -/

/-- LINE with valid endpoints: it completes with code 0; a pixel is on afterwards exactly when it was on or is a point of the
rasterization; a cell under no point is unchanged; `n = max(|dx0|, |dy0|) + 1` points, one triplet each (R121, R130). -/
def Obligations.LineDrawsItsPoints : Prop :=
  ∀ (s : State) (x0 y0 x1 y1 : Int), s.running → inX x0 → inY y0 → inX x1 → inY y1 →
    s.transport.allows (3 * (max (x1 - x0).natAbs (y1 - y0).natAbs + 1)) →
    ∃ t, exec (.line x0 y0 x1 y1) s = .next t ∧
      (∀ x y : Int, inX x → inY y →
        (t.pixel x y = true ↔ s.pixel x y = true ∨ ∃ p ∈ linePasses x0 y0 x1 y1, p.x = x ∧ p.y = y)) ∧
      (∀ (c : Column) (b : Bank),
        (∀ p ∈ linePasses x0 y0 x1 y1, ∀ a, translate p.x p.y = some a → ¬ (c = a.column ∧ b = a.bank)) →
          t.cell c b = s.cell c b) ∧
      ∃ ws, Ended 0 ws s t ∧ ws.length = 3 * (max (x1 - x0).natAbs (y1 - y0).natAbs + 1) ∧
        t.display = ws.foldl Display.take s.display

/-- Exchanging the endpoints of a LINE changes nothing: the same points in the same order, and the same outcome from every
state, also when the endpoints are invalid or the transport stops (R129). -/
def Obligations.LineIgnoresEndpointOrder : Prop :=
  ∀ x0 y0 x1 y1 : Int,
    linePasses x0 y0 x1 y1 = linePasses x1 y1 x0 y0 ∧
      ∀ s : State, exec (.line x0 y0 x1 y1) s = exec (.line x1 y1 x0 y0) s

/-- A LINE with valid endpoints has `n = max(|dx0|, |dy0|) + 1` points, between 1 and 84, and appends `3n` trace entries; its
first and last points are the two endpoints; no point comes twice (R130). -/
def Obligations.LinePointCount : Prop :=
  ∀ x0 y0 x1 y1 : Int, inX x0 → inY y0 → inX x1 → inY y1 →
    ∃ ps, linePoints x0 y0 x1 y1 = some ps ∧ ps.length = max (x1 - x0).natAbs (y1 - y0).natAbs + 1 ∧
      1 ≤ ps.length ∧ ps.length ≤ 84 ∧ ps.Nodup ∧
      ((ps.head? = some (x0, y0) ∧ ps.getLast? = some (x1, y1)) ∨ (ps.head? = some (x1, y1) ∧ ps.getLast? = some (x0, y0))) ∧
      ∀ s : State, s.running → s.transport.allows (3 * ps.length) →
        ∃ t ws, exec (.line x0 y0 x1 y1) s = .next t ∧ Ended 0 ws s t ∧ ws.length = 3 * ps.length

/-- Between two consecutive points the driving coordinate grows by 1 and the other stays or moves by one step, the same for
the whole line (R131). -/
def Obligations.LineIsMonotoneChain : Prop :=
  ∀ x0 y0 x1 y1 : Int, ∃ d : Int, (d = 1 ∨ d = -1) ∧
    ∀ (k : Nat) (p q : Pass), (linePasses x0 y0 x1 y1)[k]? = some p → (linePasses x0 y0 x1 y1)[k + 1]? = some q →
      if shallow x0 y0 x1 y1 then q.x = p.x + 1 ∧ (q.y = p.y ∨ q.y = p.y + d)
      else q.y = p.y + 1 ∧ (q.x = p.x ∨ q.x = p.x + d)

/-- Every point of a LINE lies in the bounding box of its endpoints, so with valid endpoints every point is a pixel of the
display, and no LINE raises InvariantFault (R132). -/
def Obligations.LinePointsStayInBox : Prop :=
  (∀ (x0 y0 x1 y1 : Int) (p : Pass), p ∈ linePasses x0 y0 x1 y1 →
    min x0 x1 ≤ p.x ∧ p.x ≤ max x0 x1 ∧ min y0 y1 ≤ p.y ∧ p.y ≤ max y0 y1) ∧
  (∀ (x0 y0 x1 y1 : Int) (p : Pass), inX x0 → inY y0 → inX x1 → inY y1 → p ∈ linePasses x0 y0 x1 y1 →
    inX p.x ∧ inY p.y) ∧
  (∀ (x0 y0 x1 y1 : Int) (s t : State), s.fault = false → exec (.line x0 y0 x1 y1) s = .next t → t.fault = false)

/-- The points and error terms of both rasterizers in closed form, with `k_i` the quotient rounded to the nearest integer, an
exact half down, which starts at 0, ends at the other difference and grows by 0 or 1; the single point; and the points depend
on the unordered pair of endpoints only (R136). -/
def Obligations.RasterizersClosedForm : Prop :=
  (∀ xa ya xb yb : Int, xa < xb → (yb - ya).natAbs < (xb - xa).natAbs →
    ∀ i : Nat, (i : Int) ≤ xb - xa →
      (low xa ya xb yb)[i]? = some
        { x := xa + i
          y := ya + (if yb - ya < 0 then -1 else 1) * roundedStep (xb - xa) |yb - ya| i
          e := 2 * |yb - ya| * (i + 1) - (xb - xa) - 2 * (xb - xa) * roundedStep (xb - xa) |yb - ya| i }) ∧
  (∀ xa ya xb yb : Int, ya < yb → (xb - xa).natAbs ≤ (yb - ya).natAbs →
    ∀ i : Nat, (i : Int) ≤ yb - ya →
      (high xa ya xb yb)[i]? = some
        { x := xa + (if xb - xa < 0 then -1 else 1) * roundedStep (yb - ya) |xb - xa| i
          y := ya + i
          e := 2 * |xb - xa| * (i + 1) - (yb - ya) - 2 * (yb - ya) * roundedStep (yb - ya) |xb - xa| i }) ∧
  (∀ p q : Int, 0 < p → 0 ≤ q → q ≤ p → roundedStep p q 0 = 0 ∧ roundedStep p q p = q ∧
    ∀ i : Int, (roundedStep p q (i + 1) = roundedStep p q i ∨ roundedStep p q (i + 1) = roundedStep p q i + 1) ∧
      -p < 2 * (i * q - p * roundedStep p q i) ∧ 2 * (i * q - p * roundedStep p q i) ≤ p) ∧
  (∀ x y : Int, passPoints (high x y x y) = [(x, y)]) ∧
  (∀ x0 y0 x1 y1 : Int, passPoints (linePasses x0 y0 x1 y1) = passPoints (linePasses x1 y1 x0 y0))

/-- The error term of every pass of a LINE with valid endpoints stays in the ranges of R133: −163 to 94 in the low-slope
regime, −91 to 91 in the high-slope regime. -/
def Obligations.ErrorTermRange : Prop :=
  ∀ (x0 y0 x1 y1 : Int) (p : Pass), inX x0 → inY y0 → inX x1 → inY y1 → p ∈ linePasses x0 y0 x1 y1 →
    if shallow x0 y0 x1 y1 then -163 ≤ p.e ∧ p.e ≤ 94 else -91 ≤ p.e ∧ p.e ≤ 91

/-- Horizontal, vertical and exactly diagonal lines, and the single point, point by point (R128). -/
def Obligations.DegenerateLines : Prop :=
  (∀ x0 x1 y : Int, x0 ≠ x1 → passPoints (linePasses x0 y x1 y) = (inclusive (min x0 x1) (max x0 x1)).map (fun x => (x, y))) ∧
  (∀ x y0 y1 : Int, y0 ≠ y1 → passPoints (linePasses x y0 x y1) = (inclusive (min y0 y1) (max y0 y1)).map (fun y => (x, y))) ∧
  (∀ x y n : Int, 0 ≤ n →
    passPoints (linePasses x y (x + n) (y + n)) = (inclusive 0 n).map (fun i => (x + i, y + i)) ∧
    passPoints (linePasses x y (x - n) (y + n)) = (inclusive 0 n).map (fun i => (x - i, y + i))) ∧
  (∀ x y : Int, passPoints (linePasses x y x y) = [(x, y)])

/-! ## CLEAR and INIT -/

/-- CLEAR: it completes with code 0 from any framebuffer; every cell is 0; the trace grows by 516 entries, bank by bank the
two address commands and 84 zero bytes, and the display takes exactly these (R140). -/
def Obligations.ClearZeroesAndSends : Prop :=
  ∀ s : State, s.running → s.transport.allows 516 →
    ∃ t ws, exec .clear s = .next t ∧ (∀ (c : Column) (b : Bank), t.cell c b = 0#8) ∧ Ended 0 ws s t ∧ ws.length = 516 ∧
      t.display = ws.foldl Display.take s.display ∧
      ∀ b : Bank, (ws.drop (86 * b.val)).take 86 =
        cmd (colCmd 0) :: cmd (bankCmd b) :: List.replicate 84 (dat 0#8)

/-- CLEAR is idempotent in its final state: a second one leaves every cell as the first left it, and every byte of a display
that obeys R61 and R62, all of them zero, and sends its 516 bytes again (R141 (b)). -/
def Obligations.ClearTwice : Prop :=
  ∀ (s t u : State) (w : CommandWord), s.running → s.transport = .live →
    exec .clear s = .next t → exec .clear (accept w t) = .next u →
      (∀ c b, u.cell c b = t.cell c b ∧ t.cell c b = 0#8) ∧
      (s.display.ready = true → ∀ c b, u.display.byte c b = t.display.byte c b ∧ t.display.byte c b = 0#8) ∧
      (∃ ws, t.trace = s.trace ++ ws ∧ u.trace = t.trace ++ ws ∧ ws.length = 516)

/-- After CLEAR completes on a display that obeys R61 and R62, framebuffer and display RAM are equal, both all zero, whatever
they held (R141 (c), R64). -/
def Obligations.ClearSynchronizesDisplay : Prop :=
  ∀ s : State, s.running → s.transport.allows 516 → s.display.ready = true →
    ∃ t, exec .clear s = .next t ∧ t.mirrored ∧ ∀ (c : Column) (b : Bank), t.display.byte c b = 0#8

/-- INIT: it completes with code 0; every cell is 0; the trace grows by the configuration bytes as command writes, in order,
and then by CLEAR's 516 entries (R144). -/
def Obligations.InitConfiguresAndClears : Prop :=
  ∀ s : State, s.running → s.transport.allows (Config.initSeq.length + 516) →
    ∃ t, exec .init s = .next t ∧ (∀ (c : Column) (b : Bank), t.cell c b = 0#8) ∧
      Ended 0 (Config.initSeq.map cmd ++ clearWrites) s t

/-- After INIT completes, framebuffer and display RAM are equal, both all zero, whatever state the display was in: its third
phase starts on a display that obeys R61 and R62 (the premise of R63; log 13). -/
def Obligations.InitSynchronizesDisplay : Prop :=
  ∀ s : State, s.running → s.transport.allows (Config.initSeq.length + 516) →
    ∃ t, exec .init s = .next t ∧ t.mirrored ∧ ∀ (c : Column) (b : Bank), t.display.byte c b = 0#8

/-! ## All commands: big step, small step, hang -/

/-- The machine agrees with the big-step description: whenever the transport completes the command's writes, every command
completes with the framebuffer, the result code and the ordered list of writes of the total function `bigStep` (R6 (a)). -/
def Obligations.SmallStepMatchesBigStep : Prop :=
  ∀ (i : Instr) (s : State), s.running → s.transport.allows (bigStep i s.fb).writes.length →
    ∃ t, exec i s = .next t ∧ t.fb = (bigStep i s.fb).fb ∧ Ended (bigStep i s.fb).code (bigStep i s.fb).writes s t

/-- A transport that stops after `n` of a command's writes blocks the engine at the next one: `BUSY` stays 1, `FAULT` is not
set, no response is produced and the latches keep the command (R57). That the trace holds the `n` completed writes, and the
stuck one stands in `outstanding`, is the model's choice (log 4). -/
def Obligations.HungTransportBlocks : Prop :=
  ∀ (i : Instr) (s : State) (n : Nat), s.running → s.transport = .hangsAfter n → n < (bigStep i s.fb).writes.length →
    ∃ t e, exec i s = .next t ∧ (bigStep i s.fb).writes[n]? = some e ∧ Blocked ((bigStep i s.fb).writes.take n) e s t

/-- In a drawing command that hangs, the framebuffer holds every point drawn before, and the point whose triplet is stuck
too: its cell was updated first (R57, R67). This view inside a command rests on the spec's decision D18, the framebuffer
updated before its triplet (U12; log 20). -/
def Obligations.HungDrawingKeepsUpdates : Prop :=
  ∀ (i : Instr) (s : State) (n : Nat), ¬ clearsDisplay i → s.running → s.transport = .hangsAfter n →
    n < 3 * (pointsOf i).length →
    ∃ t, exec i s = .next t ∧ ∀ x y : Int,
      (t.pixel x y = true ↔ s.pixel x y = true ∨ (x, y) ∈ (pointsOf i).take (n / 3 + 1))

/-- Termination: the number of a command's writes is bounded whatever the framebuffer holds; every command that can run answers
a next state; it has ended exactly if the transport completes all of its writes, and otherwise it is blocked at a write and
nowhere else (R185); a blocked engine stays blocked (R57). That the step of a blocked engine answers the very same state is the
model's reading (log 16), and the plan of the transport is its form (log 2). -/
def Obligations.CommandEndsIffWritesComplete : Prop :=
  (∀ (i : Instr) (m : CellStore),
    (¬ clearsDisplay i → (bigStep i m).writes.length = 3 * (pointsOf i).length ∧ (pointsOf i).length ≤ 84) ∧
      (i = .clear → (bigStep i m).writes.length = 516) ∧
      (i = .init → (bigStep i m).writes.length = Config.initSeq.length + 516)) ∧
  (∀ (i : Instr) (s : State), s.running →
    ∃ t, exec i s = .next t ∧ (t.busy = false ↔ s.transport.allows (bigStep i s.fb).writes.length) ∧
      t.fault = false ∧ (t.busy = true ↔ t.outstanding ≠ none)) ∧
  (∀ (s : State), s.busy = true → s.fault = false → s.outstanding ≠ none → (∀ plan rest, s.inputs ≠ .reset plan :: rest) →
    step s = .next s)

/-- Pixels only accumulate: no command but CLEAR and INIT turns a pixel off, in any state and under any transport; drawing the
same thing twice changes no cell, and no display byte of a mirroring display, and sends as many writes again (R180). -/
def Obligations.PixelsOnlyAccumulate : Prop :=
  (∀ (i : Instr) (s t : State) (x y : Int),
    ¬ clearsDisplay i → exec i s = .next t → s.pixel x y = true → t.pixel x y = true) ∧
  (∀ (i : Instr) (s t u : State) (w : CommandWord), ¬ clearsDisplay i → s.running → s.transport = .live →
    exec i s = .next t → exec i (accept w t) = .next u →
      (∀ c b, u.cell c b = t.cell c b) ∧ (t.mirrored → ∀ c b, u.display.byte c b = t.display.byte c b) ∧
      ∃ n, t.trace.length = s.trace.length + n ∧ u.trace.length = t.trace.length + n)

/-- No command touches what it has no business with: the words the host has still to issue, and what trace and list of
responses already hold. That `exec` of a halted or blocked engine answers its own state is the model's choice (log 24): the spec
gives such an engine no command. -/
def Obligations.CommandsFrame : Prop :=
  ∀ (i : Instr) (s t : State), exec i s = .next t →
    t.inputs = s.inputs ∧ (∃ ws, t.trace = s.trace ++ ws) ∧ (∃ rs, t.responses = s.responses ++ rs) ∧
      (s.fault = true ∨ s.outstanding ≠ none → t = s)

/-! ## Faults -/

/-- InvariantFault sets `FAULT` and changes nothing else: the engine halts with `BUSY = 1`, no response, nothing plotted or
sent, earlier points kept; only reset goes on from there; it is raised by a plot off the display and by nothing else, and no
step ever raises it (R156). The form of the stop, a fault of the step (log 15), and that `exec` of a halted engine answers its
own state (log 24) are the model's choices. -/
def Obligations.InvariantFaultIsNeverRaised : Prop :=
  (∀ (s : State) (x y : Int), s.running → ¬ (inX x ∧ inY y) → plot x y s = { s with fault := true }) ∧
  (∀ (s : State) (x y : Int), s.running → inX x → inY y → (plot x y s).fault = false) ∧
  (∀ s : State, s.fault = true → (∀ plan rest, s.inputs ≠ .reset plan :: rest) → step s = .fault .engineHalted) ∧
  (∀ (i : Instr) (s : State), s.fault = true → exec i s = .next s) ∧
  (∀ s t : State, s.fault = false → step s = .next t → t.fault = false)

/-! ## Display -/

/-- An address command moves one part of the pointer and changes nothing else; the display tells the address commands apart,
since `COLCMD` and `BANKCMD` are injective with disjoint images (R61). -/
def Obligations.AddressCommandsMovePointer : Prop :=
  (∀ d : Display, d.ready = true →
    (∀ x : Column, d.take (cmd (colCmd x)) = { d with column := x }) ∧
    (∀ b : Bank, d.take (cmd (bankCmd b)) = { d with bank := b })) ∧
  (∀ x x' : Column, colCmd x = colCmd x' → x = x') ∧ (∀ b b' : Bank, bankCmd b = bankCmd b' → b = b') ∧
  ∀ (x : Column) (b : Bank), colCmd x ≠ bankCmd b

/-- A data write stores the byte at the pointer, leaves the rest of the RAM, and moves the pointer one column on before the
last column (R62). -/
def Obligations.DataWriteStoresAndAdvances : Prop :=
  ∀ (d : Display) (v : Byte), d.ready = true →
    (d.take (dat v)).byte d.column d.bank = v ∧
    (∀ (x : Column) (b : Bank), ¬ (x = d.column ∧ b = d.bank) → (d.take (dat v)).byte x b = d.byte x b) ∧
    (d.column.val < 83 → (d.take (dat v)).column.val = d.column.val + 1 ∧ (d.take (dat v)).bank = d.bank) ∧
    (d.take (dat v)).ready = true

/-- Nothing flows back from the display to the engine: with any other display in its place, every step does the same to
everything but the display (R5, R32). -/
def Obligations.DisplayNeverInfluencesEngine : Prop :=
  ∀ (s t : State) (d : Display), step s = .next t →
    ∃ d', step { s with display := d } = .next { t with display := d' }

/-! ## Invariants -/

/-- Both stores stay in canonical form under every step (log 7). -/
def Obligations.MemoryStaysCanonical : Prop :=
  ∀ s t : State, s.memoryCanonical → step s = .next t → t.memoryCanonical

/-- The stores are canonical at reset (log 7). -/
def Obligations.ResetMemoryCanonical : Prop := State.reset.memoryCanonical

/-- A halted or blocked engine is busy and is not both (R28, R57), and `RSP` holds the last response since reset, if there is one
(R29), under every step. -/
def Obligations.ControlStaysConsistent : Prop :=
  ∀ s t : State, s.controlConsistent → step s = .next t → t.controlConsistent

/-- The control state is consistent at reset. -/
def Obligations.ResetControlConsistent : Prop := State.reset.controlConsistent

/-- The mirror is kept by every step that takes a command or waits: if the display mirrors the framebuffer whenever the engine
is not busy, it does so after the step (R64, R65). For INIT this rests on the premise of R63 as the model takes it: the display
obeys R61 and R62 from the end of the configuration on (log 13). -/
def Obligations.MirrorIsKept : Prop :=
  ∀ s t : State, s.hostKeepsDisplay → s.mirrorInv → step s = .next t → t.mirrorInv

/-- The mirror property along a run: from any idle state with a live transport, after a first command INIT, or CLEAR on a
display that obeys R61 and R62, and then any command words at all, at every moment between two of them the display RAM equals
the framebuffer (R64). For INIT no premise on the display is taken: that it obeys R61 and R62 from the end of the configuration on,
the premise of R63, is the model's choice (log 13). -/
def Obligations.MirrorAfterFirstClear : Prop :=
  ∀ (s : State) (c : Instr) (ws : List CommandWord) (k : Nat),
    s.idle → s.transport = .live → (c = .init ∨ c = .clear ∧ s.display.ready = true) →
    s.inputs = (encode c :: ws).map Input.command → k ≤ ws.length →
      ∃ t : State, Host.Core.run Sys2Proof.core (k + 1) s = .next t ∧ t.idle ∧ t.mirrored

/-- The picture: from any idle state with a live transport, after CLEAR or INIT and then any command words that spell neither,
valid, failing or reserved, a pixel is on exactly when one of those commands draws it (R23). -/
def Obligations.PictureSinceLastClear : Prop :=
  ∀ (s : State) (c : Instr) (ws : List CommandWord),
    s.idle → s.transport = .live → clearsDisplay c → (∀ w ∈ ws, ∀ i, decode w = .command i → ¬ clearsDisplay i) →
    s.inputs = (encode c :: ws).map Input.command →
      ∃ t : State, Host.Core.run Sys2Proof.core (ws.length + 1) s = .next t ∧ t.idle ∧
        ∀ x y : Int, inX x → inY y →
          (t.pixel x y = true ↔ ∃ w ∈ ws, ∃ i, decode w = .command i ∧ (x, y) ∈ pointsOf i)

/-! ## Assembler -/

/-- A line assembles to a word exactly when its first token is a name of the command table, its arguments are encodable
decimal integers of exactly the right number, and the word is that command's; the word then decodes to it (R88, R89, R90). -/
def Obligations.AssembledLinesAreCommands : Prop :=
  (∀ (line : List Char) (w : CommandWord), assemble line = some w ↔
    ∃ name args ns i, tokens line = name :: args ∧ arguments args = some ns ∧ w = encode i ∧
      ((name = ['S', 'E', 'T', 'P', 'I', 'X', 'E', 'L'] ∧ ∃ x y, ns = [x, y] ∧ i = .setPixel x y) ∨
       (name = ['A', 'X', 'I', 'S', 'L', 'I', 'N', 'E'] ∧ ∃ x y ori, ns = [x, y, ori] ∧ i = .axisLine x y ori) ∨
       (name = ['L', 'I', 'N', 'E'] ∧ ∃ x0 y0 x1 y1, ns = [x0, y0, x1, y1] ∧ i = .line x0 y0 x1 y1) ∨
       (name = ['C', 'L', 'E', 'A', 'R'] ∧ ns = [] ∧ i = .clear) ∨ (name = ['I', 'N', 'I', 'T'] ∧ ns = [] ∧ i = .init))) ∧
  (∀ (args : List (List Char)) (ns : List Int), arguments args = some ns →
    ns.length = args.length ∧ ∀ n ∈ ns, Encodable n) ∧
  (∀ (line : List Char) (w : CommandWord), assemble line = some w → ∃ i, i.wellFormed = true ∧ decode w = .command i)

/-- The lexical rules of the text protocol. Tokens are the maximal runs of characters other than space, tab and comma, with no
empty ones: delimiters alone give none, and after any delimiters a nonempty run of other characters that ends at the end of the
line or at a delimiter is the first token, before the tokens of what follows (R87, D23). An argument is an optional `-` and one
or more decimal digits with the value they spell, and is rejected outside the 16-bit range; arguments are read one by one
(R89). -/
def Obligations.TokensAndArguments : Prop :=
  (∀ delims : List Char, (∀ c ∈ delims, c = ' ' ∨ c = '\t' ∨ c = ',') → tokens delims = []) ∧
  (∀ delims token rest : List Char, (∀ c ∈ delims, c = ' ' ∨ c = '\t' ∨ c = ',') → token ≠ [] →
    (∀ c ∈ token, c ≠ ' ' ∧ c ≠ '\t' ∧ c ≠ ',') → (∀ c ∈ rest.head?, c = ' ' ∨ c = '\t' ∨ c = ',') →
      tokens (delims ++ token ++ rest) = token :: tokens rest) ∧
  (∀ (cs : List Char) (n : Int), argument cs = some n ↔
    -32768 ≤ n ∧ n ≤ 32767 ∧ ∃ ds : List (Fin 10), ds ≠ [] ∧
      ((cs = ds.map decimalDigit ∧ n = decimalValue ds) ∨ (cs = '-' :: ds.map decimalDigit ∧ n = -decimalValue ds))) ∧
  (∀ (args : List (List Char)) (ns : List Int), arguments args = some ns ↔ args.map argument = ns.map some)

/-! ## A hung CLEAR, and the result of a run -/

/-- A CLEAR stopped after `n` of its writes: the banks already swept are zero in framebuffer and display, the current bank is
zero in the framebuffer up to the stuck column, and the rest is as before (R140). This view inside a command rests on the spec's
decision D19, each cell zeroed just before its byte (U12; log 20). A hung INIT leaves what a CLEAR leaves that is stopped after
the writes INIT made beyond its configuration bytes: no cell changed while there are none (R144; the
difference of natural numbers is 0 then). -/
def Obligations.HungClearKeepsUpdates : Prop :=
  ∀ (s : State) (n : Nat), s.running →
    (n < 516 → s.transport = .hangsAfter n →
      ∃ t, exec .clear s = .next t ∧
        (∀ (c : Column) (b : Bank), b.val < n / 86 ∨ b.val = n / 86 ∧ c.val + 2 ≤ n % 86 → t.cell c b = 0#8) ∧
        (∀ (c : Column) (b : Bank), n / 86 < b.val ∨ b.val = n / 86 ∧ n % 86 < c.val + 2 → t.cell c b = s.cell c b) ∧
        (s.display.ready = true →
          (∀ (c : Column) (b : Bank), b.val < n / 86 → t.display.byte c b = 0#8) ∧
          (∀ (c : Column) (b : Bank), n / 86 < b.val → t.display.byte c b = s.display.byte c b))) ∧
    (n < Config.initSeq.length + 516 → s.transport = .hangsAfter n →
      ∃ t, exec .init s = .next t ∧
        (∀ (c : Column) (b : Bank), b.val < (n - Config.initSeq.length) / 86 ∨
          b.val = (n - Config.initSeq.length) / 86 ∧ c.val + 2 ≤ (n - Config.initSeq.length) % 86 → t.cell c b = 0#8) ∧
        (∀ (c : Column) (b : Bank), (n - Config.initSeq.length) / 86 < b.val ∨
          b.val = (n - Config.initSeq.length) / 86 ∧ (n - Config.initSeq.length) % 86 < c.val + 2 → t.cell c b = s.cell c b))

/-- The end of a run and its result: a program whose writes the transport completes ends, and its result is the framebuffer, the
responses, one for each of its words in order, and the writes of the big steps of its words; a state that is busy, faulted,
blocked, or has a word still to take is not an end (R187). Responses and trace count from reset (log 27). -/
def Obligations.RunResultOfAProgram : Prop :=
  (∀ (s : State) (ws : List CommandWord), s.idle → s.inputs = ws.map Input.command →
    s.transport.allows (programBig ws s.fb).trace.length →
      ∃ t : State, Host.Core.run Sys2Proof.core ws.length s = .next t ∧
        (programBig ws s.fb).responses.length = ws.length ∧
        t.runResult = some
          { fb := (programBig ws s.fb).fb
            responses := s.responses ++ (programBig ws s.fb).responses
            trace := s.trace ++ (programBig ws s.fb).trace }) ∧
  (∀ s : State, s.busy = true ∨ s.fault = true ∨ s.outstanding ≠ none ∨ s.inputs ≠ [] → s.runResult = none)
end

