-- ==== Sys2Proof/Laws/Decode.lean ====
section
/-! SUPPORT. The laws of the command word: its fields are a bijection with it, a field and its integer determine each
other, and what the decoder answers on each shape. -/

namespace Sys2Proof

/-- Reading a bit at equal positions of one vector. -/
theorem getLsbD_congr {n : Nat} (v : BitVec n) {i j : Nat} (h : i = j) : v.getLsbD i = v.getLsbD j := by rw [h]

@[simp] theorem fields_ofFields (f : Fields) : fields (ofFields f) = f := by
  obtain ⟨op, p0, p1, p2, p3⟩ := f
  simp only [fields, ofFields, Fields.mk.injEq]
  refine ⟨?_, ?_, ?_, ?_, ?_⟩ <;>
  · apply BitVec.eq_of_getLsbD_eq
    intro i hi
    simp only [BitVec.getLsbD_extractLsb', BitVec.getLsbD_append, hi, decide_true, Bool.true_and]
    split_ifs <;> first
      | (exfalso; omega)
      | exact getLsbD_congr _ (by omega)

@[simp] theorem ofFields_fields (w : CommandWord) : ofFields (fields w) = w := by
  apply BitVec.eq_of_getLsbD_eq
  intro i hi
  simp only [fields, ofFields, BitVec.getLsbD_append, BitVec.getLsbD_extractLsb']
  split_ifs <;>
  · rw [decide_eq_true (by omega), Bool.true_and]
    exact getLsbD_congr _ (by omega)

theorem sext16_operandField {n : Int} (h : Encodable n) : sext16 (operandField n) = n := by
  unfold sext16 operandField
  rw [BitVec.toInt_ofInt, Int.bmod_def]
  obtain ⟨h1, h2⟩ := h
  norm_num
  split_ifs <;> omega

theorem operandField_sext16 (p : Field) : operandField (sext16 p) = p := by
  simp [sext16, operandField]

theorem encodable_sext16 (p : Field) : Encodable (sext16 p) := by
  have h1 := BitVec.le_toInt p
  have h2 := BitVec.toInt_lt (x := p)
  unfold sext16
  norm_num at h1 h2
  exact ⟨h1, by omega⟩

theorem fields_injective {v w : CommandWord} (h : fields v = fields w) : v = w := by
  rw [← ofFields_fields v, h, ofFields_fields]

theorem eq_ofFields_iff (w : CommandWord) (f : Fields) : w = ofFields f ↔ fields w = f :=
  ⟨fun h => by rw [h, fields_ofFields], fun h => by rw [← h, ofFields_fields]⟩

/-- The fields of a masked word are the masked fields. -/
theorem fields_and (v w : CommandWord) :
    fields (v &&& w) =
      ⟨(fields v).op &&& (fields w).op, (fields v).p0 &&& (fields w).p0, (fields v).p1 &&& (fields w).p1,
        (fields v).p2 &&& (fields w).p2, (fields v).p3 &&& (fields w).p3⟩ := by
  simp only [fields, BitVec.extractLsb'_and]

/-- A word selects a row of the opcode table exactly when each of its masked fields is the row's (R74). -/
theorem and_eq_ofFields_iff (w mask : CommandWord) (f : Fields) :
    w &&& mask = ofFields f ↔
      (fields w).op &&& (fields mask).op = f.op ∧ (fields w).p0 &&& (fields mask).p0 = f.p0 ∧
        (fields w).p1 &&& (fields mask).p1 = f.p1 ∧ (fields w).p2 &&& (fields mask).p2 = f.p2 ∧
          (fields w).p3 &&& (fields mask).p3 = f.p3 := by
  rw [eq_ofFields_iff, fields_and]
  obtain ⟨op, p0, p1, p2, p3⟩ := f
  simp only [Fields.mk.injEq]

@[simp] theorem decode_ofFields (f : Fields) : decode (ofFields f) = decodeFields f := by simp [decode]

theorem decode_encode_eq (i : Instr) : decode (encode i) = decodeFields (encodeFields i) := by simp [encode]

end Sys2Proof
end

