-- ==== Sys2Proof/Laws/Operands.lean ====
section
/-! SUPPORT. The laws of the translator (20_memory R42), of the bit masks (R43) and of the loop ranges (00_scope R11). -/

namespace Sys2Proof.Machine

theorem translate_eq_none_iff (x y : Int) : translate x y = none ↔ ¬ (inX x ∧ inY y) := by
  unfold translate
  split_ifs with h
  · simpa only [reduceCtorEq, false_iff, not_not] using h
  · simpa only [true_iff] using h

theorem translate_isSome_iff (x y : Int) : (translate x y).isSome ↔ inX x ∧ inY y := by
  unfold translate
  split_ifs with h
  · exact ⟨fun _ => h, fun _ => rfl⟩
  · exact ⟨fun e => absurd e (by simp), fun e => absurd e h⟩

/-- The translation of a point, said with the point's own numbers (R42). -/
theorem translate_eq_some_iff (x y : Int) (a : PixelAddr) :
    translate x y = some a ↔ x = (a.column.val : Int) ∧ y = 8 * (a.bank.val : Int) + (a.bit.val : Int) := by
  obtain ⟨c, b, k⟩ := a
  have hc := c.isLt; have hb := b.isLt; have hk := k.isLt
  unfold translate
  split_ifs with h
  · simp only [Option.some.injEq, PixelAddr.mk.injEq, Fin.ext_iff]
    omega
  · simp only [false_iff]
    intro h'
    exact h (by omega)

/-- Two points with the same translation are one point (R21). -/
theorem translate_injective {x y x' y' : Int} {a : PixelAddr} (h : translate x y = some a) (h' : translate x' y' = some a) :
    x = x' ∧ y = y' := by
  rw [translate_eq_some_iff] at h h'; omega

/-- Every bit of every cell is a pixel (R21). -/
theorem translate_surjective (a : PixelAddr) :
    translate (a.column.val : Int) (8 * (a.bank.val : Int) + (a.bit.val : Int)) = some a := by
  rw [translate_eq_some_iff]; exact ⟨rfl, rfl⟩

theorem translate_of_onDisplay {x y : Int} (h : inX x ∧ inY y) : ∃ a, translate x y = some a :=
  Option.isSome_iff_exists.1 ((translate_isSome_iff x y).2 h)

theorem bitMask_getLsbD (k : BitNo) (j : Nat) : (bitMask k).getLsbD j = decide (j = k.val) := by
  have hk := k.isLt
  simp only [bitMask, BitVec.getLsbD_shiftLeft, BitVec.getLsbD_one]
  by_cases h : j = k.val
  · subst h; simp [hk]
  · simp only [h, decide_false]
    by_cases h2 : j < k.val
    · simp [h2]
    · have : j - k.val ≠ 0 := by omega
      simp [this]

theorem mem_inclusive {a b v : Int} : v ∈ inclusive a b ↔ a ≤ v ∧ v ≤ b := by
  simp only [inclusive, List.mem_map, List.mem_range]
  constructor
  · rintro ⟨i, hi, rfl⟩; omega
  · intro h; exact ⟨(v - a).toNat, by omega, by omega⟩

@[simp] theorem length_inclusive (a b : Int) : (inclusive a b).length = (b - a + 1).toNat := by simp [inclusive]

theorem getElem?_inclusive {a b : Int} {i : Nat} (h : i < (b - a + 1).toNat) :
    (inclusive a b)[i]? = some (a + (i : Int)) := by simp [inclusive, h]

theorem orientation_eq_none_iff (ori : Int) : orientation ori = none ↔ ori ≠ 0 ∧ ori ≠ 1 := by
  unfold orientation; split_ifs with h1 h2 <;> simp_all

end Sys2Proof.Machine
end

