-- ==== Sys2Proof/Laws/Line.lean ====
section
/-! SUPPORT. The rasterizers: HIGH is the transpose of LOW (42_line R126), the loop's closed form (R136), the number of
passes (R130) and the box the points stay in (R132); and the sweeps' points (41_axis_line R113). -/

namespace Sys2Proof.Machine

/-! ## The rounded quotient -/

/-- What the rounded quotient is, without division (R136). -/
theorem roundedStep_eq_iff {p q i k : Int} (hp : 0 < p) :
    roundedStep p q i = k ↔ 2 * p * k ≤ 2 * i * q + p - 1 ∧ 2 * i * q + p - 1 < 2 * p * k + 2 * p := by
  unfold roundedStep
  constructor
  · rintro rfl
    have h1 := Int.mul_ediv_add_emod (2 * i * q + p - 1) (2 * p)
    have h2 := Int.emod_nonneg (2 * i * q + p - 1) (b := 2 * p) (by omega)
    have h3 := Int.emod_lt_of_pos (2 * i * q + p - 1) (b := 2 * p) (by omega)
    constructor <;> linarith
  · rintro ⟨h1, h2⟩
    apply le_antisymm
    · exact Int.lt_add_one_iff.1 (Int.ediv_lt_of_lt_mul (by omega) (by linarith))
    · exact Int.le_ediv_of_mul_le (by omega) (by linarith)

theorem roundedStep_zero {p q : Int} (hp : 0 < p) : roundedStep p q 0 = 0 := by
  rw [roundedStep_eq_iff hp]; constructor <;> linarith

theorem roundedStep_self {p q : Int} (hp : 0 < p) : roundedStep p q p = q := by
  rw [roundedStep_eq_iff hp]; constructor <;> nlinarith

/-- One iteration on, the rounded quotient grows by one exactly when the error term is positive (R124, R136). -/
theorem roundedStep_succ {p q i : Int} (hp : 0 < p) (h0 : 0 ≤ q) (h1 : q ≤ p) :
    roundedStep p q (i + 1) =
      if 2 * q * (i + 1) - p - 2 * p * roundedStep p q i > 0 then roundedStep p q i + 1 else roundedStep p q i := by
  obtain ⟨ha, hb⟩ := (roundedStep_eq_iff hp).1 (rfl : roundedStep p q i = roundedStep p q i)
  split_ifs with h <;> rw [roundedStep_eq_iff hp] <;> constructor <;> linarith

theorem roundedStep_bounds {p q i : Int} (hp : 0 < p) (h0 : 0 ≤ q) (hi : 0 ≤ i) (hip : i ≤ p) :
    0 ≤ roundedStep p q i ∧ roundedStep p q i ≤ q := by
  obtain ⟨ha, hb⟩ := (roundedStep_eq_iff hp).1 (rfl : roundedStep p q i = roundedStep p q i)
  have hiq : i * q ≤ p * q := mul_le_mul_of_nonneg_right hip h0
  have hiq0 : 0 ≤ i * q := mul_nonneg hi h0
  constructor
  · by_contra hneg
    have : p * roundedStep p q i ≤ p * (-1) := mul_le_mul_of_nonneg_left (by omega) hp.le
    linarith
  · by_contra hbig
    have : p * (q + 1) ≤ p * roundedStep p q i := mul_le_mul_of_nonneg_left (by omega) hp.le
    linarith

/-! ## The loops -/

/-- The pass with its axes exchanged. -/
def Pass.transpose (p : Pass) : Pass := ⟨p.y, p.x, p.e⟩

/-- "HIGH is the transpose" of LOW, loop by loop (R126). -/
theorem highLoop_eq_transpose (dx dy xstep : Int) (n : Nat) (x y e : Int) :
    highLoop dx dy xstep n x y e = (lowLoop dy dx xstep n y x e).map Pass.transpose := by
  induction n generalizing x y e with
  | zero => rfl
  | succ n ih =>
    simp only [highLoop, lowLoop, List.map_cons, Pass.transpose]
    split_ifs <;> simp [ih]

theorem high_eq_transpose (xa ya xb yb : Int) : high xa ya xb yb = (low ya xa yb xb).map Pass.transpose :=
  highLoop_eq_transpose _ _ _ _ _ _ _

@[simp] theorem length_lowLoop (dx dy ystep : Int) (n : Nat) (x y e : Int) : (lowLoop dx dy ystep n x y e).length = n := by
  induction n generalizing x y e with
  | zero => rfl
  | succ n ih => simp only [lowLoop, List.length_cons]; split_ifs <;> simp [ih]

@[simp] theorem length_low (xa ya xb yb : Int) : (low xa ya xb yb).length = (xb - xa + 1).toNat := length_lowLoop _ _ _ _ _ _ _

@[simp] theorem length_high (xa ya xb yb : Int) : (high xa ya xb yb).length = (yb - ya + 1).toNat := by
  simp [high_eq_transpose]

/-- The loop entered at iteration `j` of the closed form stays on it (R136). -/
theorem getElem?_lowLoop {dx dy : Int} (ystep xa ya : Int) (hp : 0 < dx) (h0 : 0 ≤ dy) (h1 : dy ≤ dx) (n i : Nat) (j : Int)
    (hi : i < n) :
    (lowLoop dx dy ystep n (xa + j) (ya + ystep * roundedStep dx dy j)
        (2 * dy * (j + 1) - dx - 2 * dx * roundedStep dx dy j))[i]? =
      some ⟨xa + (j + i), ya + ystep * roundedStep dx dy (j + i),
        2 * dy * ((j + i) + 1) - dx - 2 * dx * roundedStep dx dy (j + i)⟩ := by
  induction n generalizing i j with
  | zero => omega
  | succ n ih =>
    cases i with
    | zero => simp [lowLoop]
    | succ i =>
      have hs := roundedStep_succ (i := j) hp h0 h1
      have hnext := ih i (j + 1) (by omega)
      simp only [lowLoop, List.getElem?_cons_succ]
      have hcast : j + ((i + 1 : Nat) : Int) = j + 1 + (i : Int) := by push_cast; ring
      rw [hcast, ← hnext]
      split_ifs with h
      · rw [if_pos h] at hs
        rw [hs]
        congr 2 <;> ring
      · rw [if_neg h] at hs
        rw [hs]
        congr 2 <;> ring

/-- The closed form of LOW (R136). -/
theorem getElem?_low {xa ya xb yb : Int} (hx : xa < xb) (hy : (yb - ya).natAbs ≤ (xb - xa).natAbs) (i : Nat)
    (hi : (i : Int) ≤ xb - xa) :
    (low xa ya xb yb)[i]? =
      some ⟨xa + i, ya + (if yb - ya < 0 then -1 else 1) * roundedStep (xb - xa) ((yb - ya).natAbs : Int) i,
        2 * ((yb - ya).natAbs : Int) * (i + 1) - (xb - xa) -
          2 * (xb - xa) * roundedStep (xb - xa) ((yb - ya).natAbs : Int) i⟩ := by
  have hdy : (if yb - ya < 0 then -(yb - ya) else yb - ya) = ((yb - ya).natAbs : Int) := by split_ifs <;> omega
  have h := getElem?_lowLoop (if yb - ya < 0 then -1 else 1) xa ya (dx := xb - xa) (dy := ((yb - ya).natAbs : Int))
    (by omega) (by omega) (by omega) (xb - xa + 1).toNat i 0 (by omega)
  rw [roundedStep_zero (by omega)] at h
  simp only [mul_zero, add_zero, sub_zero, zero_add, mul_one] at h
  simp only [low, hdy]
  exact h

/-- The closed form of HIGH (R136). -/
theorem getElem?_high {xa ya xb yb : Int} (hy : ya < yb) (hx : (xb - xa).natAbs ≤ (yb - ya).natAbs) (i : Nat)
    (hi : (i : Int) ≤ yb - ya) :
    (high xa ya xb yb)[i]? =
      some ⟨xa + (if xb - xa < 0 then -1 else 1) * roundedStep (yb - ya) ((xb - xa).natAbs : Int) i, ya + i,
        2 * ((xb - xa).natAbs : Int) * (i + 1) - (yb - ya) -
          2 * (yb - ya) * roundedStep (yb - ya) ((xb - xa).natAbs : Int) i⟩ := by
  rw [high_eq_transpose, List.getElem?_map, getElem?_low hy hx i hi]
  rfl

/-- The single point (R128). -/
theorem high_single (x y : Int) : high x y x y = [⟨x, y, 0⟩] := by simp [high, highLoop]

/-! ## The points -/

/-- The number of passes of a line is the greater difference plus one (R130). -/
theorem length_linePasses (x0 y0 x1 y1 : Int) :
    (linePasses x0 y0 x1 y1).length = max (x1 - x0).natAbs (y1 - y0).natAbs + 1 := by
  unfold linePasses shallow
  split_ifs <;> simp <;> omega

/-- A point lies between two points, axis by axis (R132). -/
def between (a b : Point) (p : Point) : Prop :=
  (min a.1 b.1 ≤ p.1 ∧ p.1 ≤ max a.1 b.1) ∧ (min a.2 b.2 ≤ p.2 ∧ p.2 ≤ max a.2 b.2)

theorem mem_low_between {xa ya xb yb : Int} (hx : xa < xb) (hy : (yb - ya).natAbs ≤ (xb - xa).natAbs) {p : Pass}
    (h : p ∈ low xa ya xb yb) : between (xa, ya) (xb, yb) (p.x, p.y) := by
  obtain ⟨i, hi, rfl⟩ := List.getElem_of_mem h
  have hi' : (i : Int) ≤ xb - xa := by rw [length_low] at hi; omega
  have hk := roundedStep_bounds (p := xb - xa) (q := ((yb - ya).natAbs : Int)) (i := i) (by omega) (by omega) (by omega) hi'
  have he := getElem?_low hx hy i hi'
  rw [List.getElem?_eq_getElem hi, Option.some.injEq] at he
  rw [he]
  unfold between
  refine ⟨by constructor <;> simp only <;> omega, ?_⟩
  split_ifs with hneg <;> simp only <;> omega

theorem mem_high_between {xa ya xb yb : Int} (hy : ya ≤ yb) (hx : (xb - xa).natAbs ≤ (yb - ya).natAbs) {p : Pass}
    (h : p ∈ high xa ya xb yb) : between (xa, ya) (xb, yb) (p.x, p.y) := by
  rcases eq_or_lt_of_le hy with rfl | hy
  · obtain rfl : xa = xb := by omega
    rw [high_single, List.mem_singleton] at h
    subst h
    simp [between]
  · rw [high_eq_transpose, List.mem_map] at h
    obtain ⟨q, hq, rfl⟩ := h
    exact (mem_low_between hy hx hq).symm

/-- Every point of a line lies in the bounding box of its endpoints (R132). -/
theorem mem_linePasses_between {x0 y0 x1 y1 : Int} {p : Pass} (h : p ∈ linePasses x0 y0 x1 y1) :
    between (x0, y0) (x1, y1) (p.x, p.y) := by
  unfold linePasses shallow at h
  split_ifs at h with h1 h2 h3
  · have := mem_low_between (by omega) (by omega) h
    unfold between at *; simp only at *; omega
  · exact mem_low_between (by omega) (by omega) h
  · have := mem_high_between (by omega) (by omega) h
    unfold between at *; simp only at *; omega
  · exact mem_high_between (by omega) (by omega) h

theorem onDisplay_of_between {a b p : Point} (ha : onDisplay a) (hb : onDisplay b) (h : between a b p) : onDisplay p := by
  unfold between at h; unfold onDisplay inX inY at *; omega

/-- Every point a LINE draws is a pixel of the display (R132). -/
theorem linePoints_onDisplay {x0 y0 x1 y1 : Int} {ps : List Point} (h : linePoints x0 y0 x1 y1 = some ps) :
    ∀ q ∈ ps, onDisplay q := by
  unfold linePoints at h
  split_ifs at h with hv
  obtain rfl := Option.some.inj h
  intro q hq
  obtain ⟨p, hp, rfl⟩ := List.mem_map.1 hq
  exact onDisplay_of_between (a := (x0, y0)) (b := (x1, y1)) ⟨hv.1, hv.2.1⟩ ⟨hv.2.2.1, hv.2.2.2⟩ (mem_linePasses_between hp)

/-! ## The sweeps -/

theorem mem_hsweep {x y : Int} {q : Point} : q ∈ hsweep x y ↔ (x ≤ q.1 ∧ q.1 ≤ 83) ∧ q.2 = y := by
  obtain ⟨u, v⟩ := q
  simp only [hsweep, List.mem_map, Prod.mk.injEq, mem_inclusive]
  constructor
  · rintro ⟨c, hc, rfl, rfl⟩; exact ⟨hc, rfl⟩
  · rintro ⟨hc, rfl⟩; exact ⟨u, hc, rfl, rfl⟩

theorem mem_vsweep {x y : Int} {q : Point} : q ∈ vsweep x y ↔ q.1 = x ∧ (y ≤ q.2 ∧ q.2 ≤ 47) := by
  obtain ⟨u, v⟩ := q
  simp only [vsweep, List.mem_map, Prod.mk.injEq, mem_inclusive]
  constructor
  · rintro ⟨c, hc, rfl, rfl⟩; exact ⟨rfl, hc⟩
  · rintro ⟨rfl, hc⟩; exact ⟨v, hc, rfl, rfl⟩

/-- Every point an AXISLINE draws is a pixel of the display (R113). -/
theorem axisPoints_onDisplay {x y ori : Int} {ps : List Point} (h : axisPoints x y ori = some ps) :
    ∀ q ∈ ps, onDisplay q := by
  unfold axisPoints at h
  split_ifs at h with hv
  obtain ⟨o, -, rfl⟩ := Option.map_eq_some_iff.1 h
  intro q hq
  cases o with
  | horizontal =>
    have := mem_hsweep.1 hq
    unfold onDisplay inX inY at *; omega
  | vertical =>
    have := mem_vsweep.1 hq
    unfold onDisplay inX inY at *; omega

end Sys2Proof.Machine
end

