-- ==== Sys2Proof/Laws/Memory.lean ====
section
/-! SUPPORT. The laws of memories and stores: read after write, the canonical form, and that a canonical memory is
determined by what it reads. -/

namespace Sys2Proof.Machine

@[simp] theorem Memory.read_nil (a : Nat) : Memory.read [] a = none := rfl

theorem Memory.read_cons (c : Host.Cell) (m : Memory) (a : Nat) :
    Memory.read (c :: m) a = if a = c.1 then some c.2 else Memory.read m a := rfl

theorem Memory.read_write_same (m : Memory) (a : Nat) (v : Byte) : Memory.read (Memory.write m a v) a = some v := by
  induction m with
  | nil => simp [Memory.write, Memory.read]
  | cons c m ih =>
    by_cases h1 : a < c.1
    · simp [Memory.write, h1, Memory.read]
    · by_cases h2 : a = c.1
      · simp [Memory.write, h2, Memory.read]
      · simp [Memory.write, h1, h2, Memory.read, ih]

theorem Memory.read_write_ne (m : Memory) {a k : Nat} (v : Byte) (h : k ≠ a) :
    Memory.read (Memory.write m a v) k = Memory.read m k := by
  induction m with
  | nil => simp [Memory.write, Memory.read, h]
  | cons c m ih =>
    by_cases h1 : a < c.1
    · simp [Memory.write, h1, Memory.read, h]
    · by_cases h2 : a = c.1
      · subst h2; simp [Memory.write, Memory.read, h]
      · simp [Memory.write, h1, h2, Memory.read, ih]

theorem Memory.mem_write {m : Memory} {a : Nat} {v : Byte} {c : Host.Cell} (h : c ∈ Memory.write m a v) :
    c = (a, v) ∨ c ∈ m := by
  induction m with
  | nil => simpa [Memory.write] using h
  | cons d m ih =>
    by_cases h1 : a < d.1
    · simpa [Memory.write, h1] using h
    · by_cases h2 : a = d.1
      · simp only [Memory.write, h2, if_true, if_false, List.mem_cons, lt_irrefl] at h
        rcases h with h | h
        · exact .inl (h2 ▸ h)
        · exact .inr (List.mem_cons_of_mem _ h)
      · simp only [Memory.write, h1, h2, if_false, List.mem_cons] at h
        rcases h with h | h
        · exact .inr (h ▸ List.mem_cons_self)
        · exact (ih h).imp id (List.mem_cons_of_mem _)

/-- A write below the number of cells keeps the canonical form. -/
theorem Memory.wf_write {m : Memory} {a : Nat} {v : Byte} (hm : Memory.wf m) (ha : a < 504) :
    Memory.wf (Memory.write m a v) := by
  refine ⟨?_, fun c hc => ?_⟩
  · obtain ⟨hp, -⟩ := hm
    induction m with
    | nil => simp [Memory.write]
    | cons d m ih =>
      rw [List.pairwise_cons] at hp
      by_cases h1 : a < d.1
      · simp only [Memory.write, h1, if_true, List.pairwise_cons]
        refine ⟨fun c hc => ?_, hp.1, hp.2⟩
        rcases List.mem_cons.1 hc with rfl | hc
        · exact h1
        · exact lt_trans h1 (hp.1 c hc)
      · by_cases h2 : a = d.1
        · simp only [Memory.write, h2, if_true, if_false, lt_irrefl, List.pairwise_cons]
          exact hp
        · simp only [Memory.write, h1, h2, if_false, List.pairwise_cons]
          refine ⟨fun c hc => ?_, ih hp.2⟩
          rcases Memory.mem_write hc with rfl | hc
          · exact lt_of_le_of_ne (not_lt.1 h1) (Ne.symm h2)
          · exact hp.1 c hc
  · rcases Memory.mem_write hc with rfl | hc
    · exact ha
    · exact hm.2 c hc

@[simp] theorem Memory.wf_nil : Memory.wf [] := by simp [Memory.wf]

theorem Memory.read_eq_none_of_lt {m : Memory} {a : Nat} (h : ∀ c ∈ m, a < c.1) : Memory.read m a = none := by
  induction m with
  | nil => rfl
  | cons c m ih =>
    have hc := h c List.mem_cons_self
    rw [Memory.read_cons, if_neg (Nat.ne_of_lt hc)]
    exact ih fun d hd => h d (List.mem_cons_of_mem _ hd)

/-- Canonical memories that read alike are equal. -/
theorem Memory.ext_read {m m' : Memory} (hm : Memory.wf m) (hm' : Memory.wf m')
    (h : ∀ a, Memory.read m a = Memory.read m' a) : m = m' := by
  obtain ⟨hp, -⟩ := hm
  obtain ⟨hp', -⟩ := hm'
  induction m generalizing m' with
  | nil =>
    cases m' with
    | nil => rfl
    | cons d m' => simpa [Memory.read_cons] using h d.1
  | cons c m ih =>
    cases m' with
    | nil => simpa [Memory.read_cons] using h c.1
    | cons d m' =>
      rw [List.pairwise_cons] at hp hp'
      have hk : c.1 = d.1 := by
        rcases lt_trichotomy c.1 d.1 with hlt | heq | hgt
        · have h0 := h c.1
          rw [Memory.read_cons, if_pos rfl, Memory.read_eq_none_of_lt] at h0
          · simp at h0
          · intro e he
            rcases List.mem_cons.1 he with rfl | he
            · exact hlt
            · exact lt_trans hlt (hp'.1 e he)
        · exact heq
        · have h0 := h d.1
          rw [Memory.read_cons (c := d), if_pos rfl, Memory.read_eq_none_of_lt] at h0
          · simp at h0
          · intro e he
            rcases List.mem_cons.1 he with rfl | he
            · exact hgt
            · exact lt_trans hgt (hp.1 e he)
      have hv : c.2 = d.2 := by
        have h0 := h c.1
        rw [Memory.read_cons, if_pos rfl, Memory.read_cons, if_pos hk] at h0
        exact Option.some.inj h0
      have ht : m = m' := by
        refine ih (fun a => ?_) hp.2 hp'.2
        by_cases ha : a = c.1
        · rw [Memory.read_eq_none_of_lt (m := m) (fun e he => ha ▸ hp.1 e he),
            Memory.read_eq_none_of_lt (m := m') (fun e he => ha ▸ hk ▸ hp'.1 e he)]
        · have h0 := h a
          rwa [Memory.read_cons, if_neg ha, Memory.read_cons, if_neg (hk ▸ ha)] at h0
      rw [Prod.ext hk hv, ht]

/-! ## Stores -/

theorem cellKey_lt (x : Column) (b : Bank) : cellKey x b < 504 := by
  have := x.isLt; have := b.isLt; unfold cellKey; omega

theorem cellKey_injective {x x' : Column} {b b' : Bank} (h : cellKey x b = cellKey x' b') : x = x' ∧ b = b' := by
  have := x.isLt; have := b.isLt; have := x'.isLt; have := b'.isLt
  unfold cellKey at h
  exact ⟨Fin.ext (by omega), Fin.ext (by omega)⟩

theorem CellStore.readWith_write_same (f : Nat → Column → Bank → Byte) (m : CellStore) (x : Column) (b : Bank) (v : Byte) :
    (m.write x b v).readWith f x b = v := by
  simp [CellStore.readWith, CellStore.write, Memory.read_write_same]

theorem CellStore.readWith_write_ne (f : Nat → Column → Bank → Byte) (m : CellStore) {x x' : Column} {b b' : Bank} (v : Byte)
    (h : ¬ (x' = x ∧ b' = b)) : (m.write x b v).readWith f x' b' = m.readWith f x' b' := by
  have hk : cellKey x' b' ≠ cellKey x b := fun e => h (cellKey_injective e)
  simp [CellStore.readWith, CellStore.write, Memory.read_write_ne _ _ hk]

/-- A store after a write reads the new value there and the old one everywhere else. -/
theorem CellStore.readWith_write (f : Nat → Column → Bank → Byte) (m : CellStore) (x x' : Column) (b b' : Bank) (v : Byte) :
    (m.write x b v).readWith f x' b' = if x' = x ∧ b' = b then v else m.readWith f x' b' := by
  by_cases h : x' = x ∧ b' = b
  · rw [if_pos h, h.1, h.2, CellStore.readWith_write_same]
  · rw [if_neg h, CellStore.readWith_write_ne f m v h]

@[simp] theorem CellStore.write_era (m : CellStore) (x : Column) (b : Bank) (v : Byte) : (m.write x b v).era = m.era := rfl

theorem CellStore.wf_write {m : CellStore} (x : Column) (b : Bank) (v : Byte) (h : Memory.wf m.cells) :
    Memory.wf (m.write x b v).cells := Memory.wf_write h (cellKey_lt x b)

theorem fbRead_write (m : CellStore) (x x' : Column) (b b' : Bank) (v : Byte) :
    fbRead (m.write x b v) x' b' = if x' = x ∧ b' = b then v else fbRead m x' b' :=
  CellStore.readWith_write _ m x x' b b' v

end Sys2Proof.Machine
end

