-- ==== Sys2Proof/Laws/State.lean ====
section
/-! SUPPORT. One lemma per field per update of State that the shared operations make, so that no later proof unfolds a
record update. -/

namespace Sys2Proof.Machine

section deliver
variable (es : List Tx) (s : State)
@[simp] theorem deliver_fb : (deliver es s).fb = s.fb := rfl
@[simp] theorem deliver_op : (deliver es s).op = s.op := rfl
@[simp] theorem deliver_p0 : (deliver es s).p0 = s.p0 := rfl
@[simp] theorem deliver_p1 : (deliver es s).p1 = s.p1 := rfl
@[simp] theorem deliver_p2 : (deliver es s).p2 = s.p2 := rfl
@[simp] theorem deliver_p3 : (deliver es s).p3 = s.p3 := rfl
@[simp] theorem deliver_busy : (deliver es s).busy = s.busy := rfl
@[simp] theorem deliver_fault : (deliver es s).fault = s.fault := rfl
@[simp] theorem deliver_rsp : (deliver es s).rsp = s.rsp := rfl
@[simp] theorem deliver_responses : (deliver es s).responses = s.responses := rfl
@[simp] theorem deliver_trace : (deliver es s).trace = s.trace ++ es := rfl
@[simp] theorem deliver_outstanding : (deliver es s).outstanding = s.outstanding := rfl
@[simp] theorem deliver_transport : (deliver es s).transport = s.transport := rfl
@[simp] theorem deliver_display : (deliver es s).display = es.foldl Display.take s.display := rfl
@[simp] theorem deliver_inputs : (deliver es s).inputs = s.inputs := rfl
@[simp] theorem deliver_free : (deliver es s).free = s.free := rfl
end deliver

section hang
variable (e : Tx) (s : State)
@[simp] theorem hang_fb : (hang e s).fb = s.fb := rfl
@[simp] theorem hang_op : (hang e s).op = s.op := rfl
@[simp] theorem hang_p0 : (hang e s).p0 = s.p0 := rfl
@[simp] theorem hang_p1 : (hang e s).p1 = s.p1 := rfl
@[simp] theorem hang_p2 : (hang e s).p2 = s.p2 := rfl
@[simp] theorem hang_p3 : (hang e s).p3 = s.p3 := rfl
@[simp] theorem hang_busy : (hang e s).busy = s.busy := rfl
@[simp] theorem hang_fault : (hang e s).fault = s.fault := rfl
@[simp] theorem hang_rsp : (hang e s).rsp = s.rsp := rfl
@[simp] theorem hang_responses : (hang e s).responses = s.responses := rfl
@[simp] theorem hang_trace : (hang e s).trace = s.trace := rfl
@[simp] theorem hang_outstanding : (hang e s).outstanding = some e := rfl
@[simp] theorem hang_transport : (hang e s).transport = s.transport := rfl
@[simp] theorem hang_display : (hang e s).display = if Config.stuckByteArrives s.free then s.display.take e else s.display := rfl
@[simp] theorem hang_inputs : (hang e s).inputs = s.inputs := rfl
@[simp] theorem hang_free : (hang e s).free = s.free + 1 := rfl
end hang

section releaseLatches
variable (s : State)
@[simp] theorem releaseLatches_fb : (releaseLatches s).fb = s.fb := rfl
@[simp] theorem releaseLatches_op : (releaseLatches s).op = Config.freeOpcode s.free := rfl
@[simp] theorem releaseLatches_p0 : (releaseLatches s).p0 = Config.freeOperand s.free 0 := rfl
@[simp] theorem releaseLatches_p1 : (releaseLatches s).p1 = Config.freeOperand s.free 1 := rfl
@[simp] theorem releaseLatches_p2 : (releaseLatches s).p2 = Config.freeOperand s.free 2 := rfl
@[simp] theorem releaseLatches_p3 : (releaseLatches s).p3 = Config.freeOperand s.free 3 := rfl
@[simp] theorem releaseLatches_busy : (releaseLatches s).busy = s.busy := rfl
@[simp] theorem releaseLatches_fault : (releaseLatches s).fault = s.fault := rfl
@[simp] theorem releaseLatches_rsp : (releaseLatches s).rsp = s.rsp := rfl
@[simp] theorem releaseLatches_responses : (releaseLatches s).responses = s.responses := rfl
@[simp] theorem releaseLatches_trace : (releaseLatches s).trace = s.trace := rfl
@[simp] theorem releaseLatches_outstanding : (releaseLatches s).outstanding = s.outstanding := rfl
@[simp] theorem releaseLatches_transport : (releaseLatches s).transport = s.transport := rfl
@[simp] theorem releaseLatches_display : (releaseLatches s).display = s.display := rfl
@[simp] theorem releaseLatches_inputs : (releaseLatches s).inputs = s.inputs := rfl
@[simp] theorem releaseLatches_free : (releaseLatches s).free = s.free + 1 := rfl
end releaseLatches

section accept
variable (w : CommandWord) (s : State)
@[simp] theorem accept_fb : (accept w s).fb = s.fb := rfl
@[simp] theorem accept_op : (accept w s).op = (fields w).op := rfl
@[simp] theorem accept_p0 : (accept w s).p0 = (fields w).p0 := rfl
@[simp] theorem accept_p1 : (accept w s).p1 = (fields w).p1 := rfl
@[simp] theorem accept_p2 : (accept w s).p2 = (fields w).p2 := rfl
@[simp] theorem accept_p3 : (accept w s).p3 = (fields w).p3 := rfl
@[simp] theorem accept_busy : (accept w s).busy = true := rfl
@[simp] theorem accept_fault : (accept w s).fault = s.fault := rfl
@[simp] theorem accept_rsp : (accept w s).rsp = s.rsp := rfl
@[simp] theorem accept_responses : (accept w s).responses = s.responses := rfl
@[simp] theorem accept_trace : (accept w s).trace = s.trace := rfl
@[simp] theorem accept_outstanding : (accept w s).outstanding = s.outstanding := rfl
@[simp] theorem accept_transport : (accept w s).transport = s.transport := rfl
@[simp] theorem accept_display : (accept w s).display = s.display := rfl
@[simp] theorem accept_inputs : (accept w s).inputs = s.inputs := rfl
@[simp] theorem accept_free : (accept w s).free = s.free := rfl
@[simp] theorem accept_stopped : (accept w s).stopped = s.stopped := rfl
end accept

section restart
variable (plan : Transport) (s : State)
@[simp] theorem restart_fb : (restart plan s).fb = { cells := [], era := s.free } := rfl
@[simp] theorem restart_busy : (restart plan s).busy = false := rfl
@[simp] theorem restart_fault : (restart plan s).fault = false := rfl
@[simp] theorem restart_rsp : (restart plan s).rsp = Config.freeResponse s.free := rfl
@[simp] theorem restart_responses : (restart plan s).responses = [] := rfl
@[simp] theorem restart_trace : (restart plan s).trace = [] := rfl
@[simp] theorem restart_outstanding : (restart plan s).outstanding = none := rfl
@[simp] theorem restart_transport : (restart plan s).transport = plan := rfl
@[simp] theorem restart_display : (restart plan s).display = s.display := rfl
@[simp] theorem restart_inputs : (restart plan s).inputs = s.inputs := rfl
@[simp] theorem restart_free : (restart plan s).free = s.free + 1 := rfl
end restart

section conditions
variable (s : State)
@[simp] theorem stopped_deliver (es : List Tx) : (deliver es s).stopped = s.stopped := rfl
@[simp] theorem stopped_hang (e : Tx) : (hang e s).stopped = true := by simp [State.stopped]
@[simp] theorem stopped_withFb (m : CellStore) : ({ s with fb := m } : State).stopped = s.stopped := rfl
@[simp] theorem stopped_withDisplay (d : Display) : ({ s with display := d } : State).stopped = s.stopped := rfl
@[simp] theorem stopped_withTransport (p : Transport) : ({ s with transport := p } : State).stopped = s.stopped := rfl
theorem stopped_eq_false_iff : s.stopped = false ↔ s.fault = false ∧ s.outstanding = none := by
  cases h : s.outstanding <;> simp [State.stopped, h]
theorem stopped_eq_true_iff : s.stopped = true ↔ s.fault = true ∨ s.outstanding ≠ none := by
  cases h : s.outstanding <;> simp [State.stopped, h]
end conditions

end Sys2Proof.Machine
end

