-- ==== Sys2Proof/Laws/Ops.lean ====
section
/-! SUPPORT. What each shared operation does, said once: a stopped engine does nothing, what a write does under each plan of
the transport, that a run of writes is the writes one after another, how a command ends, and PLOT. -/

namespace Sys2Proof.Machine

/-! ## Conditions -/

theorem whenRunning_of_stopped {f : State → State} {s : State} (h : s.stopped = true) : whenRunning f s = s := by
  simp [whenRunning, h]

theorem whenRunning_of_not_stopped {f : State → State} {s : State} (h : s.stopped = false) : whenRunning f s = f s := by
  simp [whenRunning, h]

theorem State.running.stopped {s : State} (h : s.running) : s.stopped = false :=
  (stopped_eq_false_iff s).2 ⟨h.2.1, h.2.2⟩

theorem State.idle.stopped {s : State} (h : s.idle) : s.stopped = false :=
  (stopped_eq_false_iff s).2 ⟨h.2.1, h.2.2⟩

theorem State.idle.running_accept {s : State} (h : s.idle) (w : CommandWord) (rest : List Input) :
    (accept w { s with inputs := rest }).running := ⟨rfl, h.2.1, h.2.2⟩

@[simp] theorem Transport.allows_live (n : Nat) : Transport.live.allows n := trivial
@[simp] theorem Transport.allows_hangsAfter (m n : Nat) : (Transport.hangsAfter m).allows n ↔ n ≤ m := Iff.rfl
@[simp] theorem Transport.after_live (n : Nat) : Transport.live.after n = .live := rfl
@[simp] theorem Transport.after_hangsAfter (m n : Nat) : (Transport.hangsAfter m).after n = .hangsAfter (m - n) := rfl

@[simp] theorem Transport.allows_zero (p : Transport) : p.allows 0 := by cases p <;> simp

@[simp] theorem Transport.after_zero (p : Transport) : p.after 0 = p := by cases p <;> simp

theorem Transport.after_after (p : Transport) (m n : Nat) : (p.after m).after n = p.after (m + n) := by
  cases p <;> simp [Nat.sub_sub]

theorem Transport.allows_add (p : Transport) (m n : Nat) : p.allows (m + n) ↔ p.allows m ∧ (p.after m).allows n := by
  cases p <;> simp; omega

theorem Transport.not_allows_iff (p : Transport) (n : Nat) : ¬ p.allows n ↔ ∃ m, p = .hangsAfter m ∧ m < n := by
  cases p <;> simp

/-! ## The transport -/

theorem deliver_nil (s : State) : deliver [] s = s := by simp [deliver]

theorem deliver_append (es fs : List Tx) (s : State) : deliver (es ++ fs) s = deliver fs (deliver es s) := by
  simp [deliver, List.foldl_append]

theorem txAll_of_stopped {s : State} (es : List Tx) (h : s.stopped = true) : txAll es s = s := whenRunning_of_stopped h

theorem tx_of_stopped {s : State} (e : Tx) (h : s.stopped = true) : tx e s = s := whenRunning_of_stopped h

/-- A run of writes that the transport completes (R54, R55). -/
theorem txAll_allowed {s : State} {es : List Tx} (h : s.stopped = false) (ha : s.transport.allows es.length) :
    txAll es s = { deliver es s with transport := s.transport.after es.length } := by
  rw [txAll, whenRunning_of_not_stopped h]
  cases hp : s.transport with
  | live => simp [deliver, hp]
  | hangsAfter n =>
    simp only [hp, Transport.allows_hangsAfter] at ha
    simp [List.drop_eq_nil_of_le ha]

/-- A run of writes that the transport stops: the first `n` are completed and the next one is handed over for good (R57). -/
theorem txAll_blocked {s : State} {es : List Tx} {n : Nat} {e : Tx} (h : s.stopped = false)
    (hp : s.transport = .hangsAfter n) (he : es[n]? = some e) :
    txAll es s = hang e { deliver (es.take n) s with transport := .hangsAfter 0 } := by
  rw [txAll, whenRunning_of_not_stopped h]
  have hd : es.drop n = e :: es.drop (n + 1) := by
    obtain ⟨hn, rfl⟩ := List.getElem?_eq_some_iff.1 he
    exact List.drop_eq_getElem_cons hn
  simp [hp, hd]

/-- One write is a run of one (R54). -/
theorem tx_eq_txAll (e : Tx) (s : State) : tx e s = txAll [e] s := by
  cases h : s.stopped with
  | true => rw [tx_of_stopped e h, txAll_of_stopped _ h]
  | false =>
    rw [tx, whenRunning_of_not_stopped h]
    cases hp : s.transport with
    | live => rw [txAll_allowed h (by simp [hp])]; simp [deliver, hp]
    | hangsAfter n =>
      cases n with
      | zero =>
        rw [txAll_blocked (n := 0) (e := e) h hp (by simp)]
        simp only [List.take_zero, deliver_nil, ← hp]
      | succ n => rw [txAll_allowed h (by simp [hp])]; simp [hp]

/-- Runs compose: a run of writes is its first part and then its second (R54, R55). -/
theorem txAll_append (es fs : List Tx) (s : State) : txAll (es ++ fs) s = txAll fs (txAll es s) := by
  cases h : s.stopped with
  | true => simp [txAll_of_stopped _ h]
  | false =>
    by_cases ha : s.transport.allows es.length
    · rw [txAll_allowed h ha]
      by_cases hb : (s.transport.after es.length).allows fs.length
      · rw [txAll_allowed h (by rw [List.length_append]; exact (Transport.allows_add _ _ _).2 ⟨ha, hb⟩),
          txAll_allowed (es := fs) (by exact h) (by simpa using hb)]
        simp [deliver, List.foldl_append, Transport.after_after]
      · obtain ⟨m, hm, hlt⟩ := (Transport.not_allows_iff _ _).1 hb
        obtain ⟨k, hk, hkm⟩ : ∃ k, s.transport = .hangsAfter k ∧ k - es.length = m := by
          cases hs : s.transport with
          | live => simp [hs] at hm
          | hangsAfter k => simp only [hs, Transport.after_hangsAfter, Transport.hangsAfter.injEq] at hm; exact ⟨k, rfl, hm⟩
        have hle : es.length ≤ k := by simpa [hk] using ha
        have hf : fs[m]? = some fs[m] := List.getElem?_eq_getElem hlt
        rw [txAll_blocked (n := k) (e := fs[m]) h hk (by rw [List.getElem?_append_right hle, hkm, hf]),
          txAll_blocked (n := m) (e := fs[m]) (by exact h) (by simpa using hm) hf]
        have ht : (es ++ fs).take k = es ++ fs.take m := by rw [List.take_append, hkm, List.take_of_length_le hle]
        simp [deliver, ht, List.foldl_append]
    · obtain ⟨k, hk, hlt⟩ := (Transport.not_allows_iff _ _).1 ha
      have he : es[k]? = some es[k] := List.getElem?_eq_getElem hlt
      rw [txAll_blocked (n := k) (e := es[k]) h hk he,
        txAll_blocked (n := k) (e := es[k]) h hk (by rw [List.getElem?_append_left hlt, he]),
        txAll_of_stopped fs (stopped_hang _ _), List.take_append_of_le_length hlt.le]

/-- The bytes of a run are handed over one by one (R54). -/
theorem txAll_cons (e : Tx) (es : List Tx) (s : State) : txAll (e :: es) s = txAll es (tx e s) := by
  rw [tx_eq_txAll, ← txAll_append, List.singleton_append]

theorem txAll_nil (s : State) : txAll [] s = s := by
  cases h : s.stopped with
  | true => exact txAll_of_stopped _ h
  | false => rw [txAll_allowed h (by simp)]; simp [deliver_nil]

theorem sendTriplet_eq_txAll (a : PixelAddr) (v : Byte) (s : State) : sendTriplet a v s = txAll (triplet a v) s := by
  rw [triplet, txAll_cons, txAll_cons, txAll_cons, txAll_nil, sendTriplet]

theorem commitPixel_eq_txAll (p : Placed) (s : State) :
    commitPixel p s = txAll (triplet p.addr p.value) { s with fb := p.fb } := sendTriplet_eq_txAll _ _ _

/-! ## FB_SET and PLOT -/

theorem fbSet_eq_none_iff (x y : Int) (m : CellStore) : fbSet x y m = none ↔ ¬ (inX x ∧ inY y) := by
  rw [← translate_eq_none_iff]
  unfold fbSet
  cases translate x y <;> simp

/-- `Valid(v)` of FB_SET, with everything it says (R100). -/
theorem fbSet_of_translate {x y : Int} {a : PixelAddr} (m : CellStore) (h : translate x y = some a) :
    fbSet x y m = some
      { addr := a
        value := fbRead m a.column a.bank ||| bitMask a.bit
        fb := m.write a.column a.bank (fbRead m a.column a.bank ||| bitMask a.bit) } := by
  simp [fbSet, h]

theorem plot_of_stopped {s : State} (x y : Int) (h : s.stopped = true) : plot x y s = s := whenRunning_of_stopped h

/-- PLOT of a pixel of the display (R103). -/
theorem plot_of_translate {s : State} {x y : Int} {a : PixelAddr} (hs : s.stopped = false) (h : translate x y = some a) :
    plot x y s = txAll (triplet a (fbRead s.fb a.column a.bank ||| bitMask a.bit))
      { s with fb := s.fb.write a.column a.bank (fbRead s.fb a.column a.bank ||| bitMask a.bit) } := by
  rw [plot, whenRunning_of_not_stopped hs, fbSet_of_translate _ h]
  exact commitPixel_eq_txAll _ _

/-- PLOT of a point off the display (R103, R156). -/
theorem plot_of_offDisplay {s : State} {x y : Int} (hs : s.stopped = false) (h : ¬ (inX x ∧ inY y)) :
    plot x y s = { s with fault := true, busy := true } := by
  rw [plot, whenRunning_of_not_stopped hs, (fbSet_eq_none_iff x y s.fb).2 h]
  exact whenRunning_of_not_stopped hs

/-! ## The ends of a command -/

theorem finish_of_stopped {s : State} (r : ResponseWord) (h : s.stopped = true) : finish r s = s := whenRunning_of_stopped h

theorem finish_of_not_stopped {s : State} (r : ResponseWord) (h : s.stopped = false) :
    finish r s = { releaseLatches s with rsp := r, responses := s.responses ++ [r], busy := false } := whenRunning_of_not_stopped h

theorem respond_of_stopped {s : State} (c : Int) (h : s.stopped = true) : respond c s = s := finish_of_stopped _ h

theorem respond_of_not_stopped {s : State} (c : Int) (h : s.stopped = false) :
    respond c s = { releaseLatches s with rsp := response c, responses := s.responses ++ [response c], busy := false } := finish_of_not_stopped _ h

@[simp] theorem finish_fb (r : ResponseWord) (s : State) : (finish r s).fb = s.fb := by
  unfold finish whenRunning; split <;> rfl
@[simp] theorem finish_display (r : ResponseWord) (s : State) : (finish r s).display = s.display := by
  unfold finish whenRunning; split <;> rfl
@[simp] theorem finish_trace (r : ResponseWord) (s : State) : (finish r s).trace = s.trace := by
  unfold finish whenRunning; split <;> rfl
@[simp] theorem finish_fault (r : ResponseWord) (s : State) : (finish r s).fault = s.fault := by
  unfold finish whenRunning; split <;> rfl
@[simp] theorem finish_outstanding (r : ResponseWord) (s : State) : (finish r s).outstanding = s.outstanding := by
  unfold finish whenRunning; split <;> rfl
@[simp] theorem finish_transport (r : ResponseWord) (s : State) : (finish r s).transport = s.transport := by
  unfold finish whenRunning; split <;> rfl
@[simp] theorem finish_inputs (r : ResponseWord) (s : State) : (finish r s).inputs = s.inputs := by
  unfold finish whenRunning; split <;> rfl
theorem finish_busy (r : ResponseWord) (s : State) : (finish r s).busy = (s.stopped && s.busy) := by
  unfold finish whenRunning; cases h : s.stopped <;> simp

/-- The response is appended to the list of responses (R187). -/
theorem finish_responses {s : State} (r : ResponseWord) (h : s.stopped = false) :
    (finish r s).responses = s.responses ++ [r] := by rw [finish_of_not_stopped r h]

section respond
variable (c : Int) (s : State)
@[simp] theorem respond_fb : (respond c s).fb = s.fb := finish_fb _ _
@[simp] theorem respond_display : (respond c s).display = s.display := finish_display _ _
@[simp] theorem respond_trace : (respond c s).trace = s.trace := finish_trace _ _
@[simp] theorem respond_fault : (respond c s).fault = s.fault := finish_fault _ _
@[simp] theorem respond_outstanding : (respond c s).outstanding = s.outstanding := finish_outstanding _ _
@[simp] theorem respond_transport : (respond c s).transport = s.transport := finish_transport _ _
@[simp] theorem respond_inputs : (respond c s).inputs = s.inputs := finish_inputs _ _
theorem respond_busy : (respond c s).busy = (s.stopped && s.busy) := finish_busy _ _
theorem respond_rsp {s : State} (h : s.stopped = false) : (respond c s).rsp = response c := by
  rw [respond_of_not_stopped c h]
theorem respond_responses {s : State} (h : s.stopped = false) : (respond c s).responses = s.responses ++ [response c] :=
  finish_responses _ h
end respond

end Sys2Proof.Machine
end

