-- ==== Sys2Proof/Laws/Script.lean ====
section
/-! SUPPORT. Drawing and clearing are both scripts: a list of acts, each of which changes the framebuffer and then sends a run
of writes. What a script does is said once, when the transport completes it and when the transport stops it; the two bodies
are then shown to be scripts. -/

namespace Sys2Proof.Machine

/-- An act: from the framebuffer, the new framebuffer and the writes sent after the change. -/
abbrev Act := CellStore → CellStore × List Tx

/-- The engine makes an act. -/
def Act.run (g : Act) : State → State := whenRunning fun s => txAll (g s.fb).2 { s with fb := (g s.fb).1 }

/-- The engine makes the acts of a script in order. -/
def runScript (gs : List Act) (s : State) : State := gs.foldl (fun s g => Act.run g s) s

/-- The big step of a script: the framebuffer afterwards, and all the writes. -/
def bigScript : List Act → CellStore → CellStore × List Tx
  | [], m => (m, [])
  | g :: gs, m => ((bigScript gs (g m).1).1, (g m).2 ++ (bigScript gs (g m).1).2)

@[simp] theorem runScript_nil (s : State) : runScript [] s = s := rfl
theorem runScript_cons (g : Act) (gs : List Act) (s : State) : runScript (g :: gs) s = runScript gs (Act.run g s) := rfl
theorem runScript_append (gs hs : List Act) (s : State) : runScript (gs ++ hs) s = runScript hs (runScript gs s) := by
  simp [runScript, List.foldl_append]

theorem bigScript_cons (g : Act) (gs : List Act) (m : CellStore) :
    bigScript (g :: gs) m = ((bigScript gs (g m).1).1, (g m).2 ++ (bigScript gs (g m).1).2) := rfl

theorem bigScript_append (gs hs : List Act) (m : CellStore) :
    bigScript (gs ++ hs) m =
      ((bigScript hs (bigScript gs m).1).1, (bigScript gs m).2 ++ (bigScript hs (bigScript gs m).1).2) := by
  induction gs generalizing m with
  | nil => simp [bigScript]
  | cons g gs ih => simp [bigScript, ih]

theorem Act.run_of_stopped (g : Act) {s : State} (h : s.stopped = true) : Act.run g s = s := whenRunning_of_stopped h

theorem Act.run_allowed (g : Act) {s : State} (h : s.stopped = false) (ha : s.transport.allows (g s.fb).2.length) :
    Act.run g s =
      { deliver (g s.fb).2 s with fb := (g s.fb).1, transport := s.transport.after (g s.fb).2.length } := by
  rw [Act.run, whenRunning_of_not_stopped h]
  exact txAll_allowed (s := { s with fb := (g s.fb).1 }) h ha

theorem Act.run_blocked (g : Act) {s : State} {n : Nat} {e : Tx} (h : s.stopped = false) (hp : s.transport = .hangsAfter n)
    (he : (g s.fb).2[n]? = some e) :
    Act.run g s = hang e { deliver ((g s.fb).2.take n) s with fb := (g s.fb).1, transport := .hangsAfter 0 } := by
  rw [Act.run, whenRunning_of_not_stopped h]
  exact txAll_blocked (s := { s with fb := (g s.fb).1 }) h hp he

theorem runScript_of_stopped (gs : List Act) {s : State} (h : s.stopped = true) : runScript gs s = s := by
  induction gs with
  | nil => rfl
  | cons g gs ih => rw [runScript_cons, Act.run_of_stopped g h, ih]

/-- A script that the transport completes. -/
theorem runScript_allowed (gs : List Act) {s : State} (h : s.stopped = false)
    (ha : s.transport.allows (bigScript gs s.fb).2.length) :
    runScript gs s =
      { deliver (bigScript gs s.fb).2 s with
        fb := (bigScript gs s.fb).1
        transport := s.transport.after (bigScript gs s.fb).2.length } := by
  induction gs generalizing s with
  | nil => simp [bigScript, deliver_nil]
  | cons g gs ih =>
    rw [bigScript_cons, List.length_append, Transport.allows_add] at ha
    have hg := Act.run_allowed g h ha.1
    rw [runScript_cons, hg, ih (by exact h) ha.2]
    simp [bigScript_cons, deliver, List.foldl_append, Transport.after_after]

/-- A script that the transport stops after `n` writes: every act up to the one that sends the stuck write has changed the
framebuffer, and nothing after it has. -/
theorem runScript_blocked (gs : List Act) {s : State} {n : Nat} (h : s.stopped = false) (hp : s.transport = .hangsAfter n)
    (hn : n < (bigScript gs s.fb).2.length) :
    ∃ k e, (bigScript gs s.fb).2[n]? = some e ∧ k < gs.length ∧
      (bigScript (gs.take k) s.fb).2.length ≤ n ∧ n < (bigScript (gs.take (k + 1)) s.fb).2.length ∧
      runScript gs s =
        hang e { deliver ((bigScript gs s.fb).2.take n) s with
          fb := (bigScript (gs.take (k + 1)) s.fb).1
          transport := .hangsAfter 0 } := by
  induction gs generalizing s n with
  | nil => simp [bigScript] at hn
  | cons g gs ih =>
    by_cases hlt : n < (g s.fb).2.length
    · refine ⟨0, (g s.fb).2[n], ?_, by simp, by simp [bigScript], by simpa [bigScript] using hlt, ?_⟩
      · rw [bigScript_cons, List.getElem?_append_left hlt, List.getElem?_eq_getElem hlt]
      · have hg := Act.run_blocked g h hp (List.getElem?_eq_getElem hlt)
        rw [runScript_cons, hg, runScript_of_stopped gs (stopped_hang _ _), bigScript_cons,
          List.take_append_of_le_length hlt.le]
        simp [bigScript]
    · have hle : (g s.fb).2.length ≤ n := not_lt.1 hlt
      have hg := Act.run_allowed g h (by simpa [hp] using hle)
      obtain ⟨k, e, he, hk, hlo, hhi, hrun⟩ := ih (s := Act.run g s) (n := n - (g s.fb).2.length)
        (by rw [hg]; exact h) (by rw [hg]; simp [hp])
        (by rw [hg]; rw [bigScript_cons, List.length_append] at hn; show _ < (bigScript gs (g s.fb).1).2.length; omega)
      have hfb : (Act.run g s).fb = (g s.fb).1 := by rw [hg]
      rw [hfb] at he hlo hhi hrun
      refine ⟨k + 1, e, ?_, by simpa using hk, ?_, ?_, ?_⟩
      · rw [bigScript_cons, List.getElem?_append_right hle, he]
      · rw [List.take_succ_cons, bigScript_cons, List.length_append]; omega
      · rw [List.take_succ_cons, bigScript_cons, List.length_append]; omega
      · rw [runScript_cons, hrun, bigScript_cons, List.take_append, List.take_of_length_le hle, List.take_succ_cons,
          bigScript_cons]
        simp [hg, deliver, List.foldl_append]

/-! ## Drawing -/

/-- PLOT as an act (R103). -/
def plotAct (q : Point) : Act := fun m =>
  match fbSet q.1 q.2 m with
  | none => (m, [])
  | some p => (p.fb, triplet p.addr p.value)

theorem plotAct_of_translate {q : Point} {a : PixelAddr} (m : CellStore) (h : translate q.1 q.2 = some a) :
    plotAct q m = (m.write a.column a.bank (fbRead m a.column a.bank ||| bitMask a.bit),
      triplet a (fbRead m a.column a.bank ||| bitMask a.bit)) := by
  simp [plotAct, fbSet_of_translate m h]

theorem drawBig_eq_bigScript (ps : List Point) (m : CellStore) : drawBig ps m = bigScript (ps.map plotAct) m := by
  induction ps generalizing m with
  | nil => rfl
  | cons q ps ih =>
    cases h : fbSet q.1 q.2 m with
    | none => simp [drawBig, bigScript, plotAct, h, ih]
    | some p => simp [drawBig, bigScript, plotAct, h, ih]

/-- PLOT of a pixel of the display is its act. -/
theorem plot_eq_act {q : Point} (h : onDisplay q) (s : State) : plot q.1 q.2 s = Act.run (plotAct q) s := by
  cases hs : s.stopped with
  | true => rw [plot_of_stopped _ _ hs, Act.run_of_stopped _ hs]
  | false =>
    obtain ⟨a, ha⟩ := translate_of_onDisplay h
    rw [plot_of_translate hs ha, Act.run, whenRunning_of_not_stopped hs, plotAct_of_translate _ ha]

/-- Plotting pixels of the display is a script. -/
theorem plotAll_eq_script {ps : List Point} (h : ∀ q ∈ ps, onDisplay q) (s : State) :
    plotAll ps s = runScript (ps.map plotAct) s := by
  induction ps generalizing s with
  | nil => rfl
  | cons q ps ih =>
    rw [List.map_cons, runScript_cons, ← plot_eq_act (h q List.mem_cons_self)]
    exact ih (fun p hp => h p (List.mem_cons_of_mem _ hp)) _

/-- Every act of a drawing sends one triplet, so `n` points send `3 n` writes (R103). -/
theorem length_drawBig {ps : List Point} (h : ∀ q ∈ ps, onDisplay q) (m : CellStore) :
    (drawBig ps m).2.length = 3 * ps.length := by
  induction ps generalizing m with
  | nil => rfl
  | cons q ps ih =>
    obtain ⟨a, ha⟩ := translate_of_onDisplay (h q List.mem_cons_self)
    have := ih (fun p hp => h p (List.mem_cons_of_mem _ hp))
    simp only [drawBig, fbSet_of_translate m ha, List.length_append, this, triplet, List.length_cons, List.length_nil]
    omega

/-! ## Clearing -/

/-- One bank of CLEAR as a script (R140). -/
def clearBankScript (b : Bank) : List Act :=
  (fun m => (m, [cmd (colCmd 0), cmd (bankCmd b)])) ::
    (List.finRange 84).map (fun x m => (m.write x b 0#8, [dat 0#8]))

/-- CLEAR's body as a script (R140). -/
def clearScript : List Act := (List.finRange 6).flatMap clearBankScript

theorem clearCell_eq_act (b : Bank) (s : State) (x : Column) :
    clearCell b s x = Act.run (fun m => (m.write x b 0#8, [dat 0#8])) s := by
  cases hs : s.stopped with
  | true =>
    rw [Act.run_of_stopped _ hs, clearCell, whenRunning_of_stopped hs, tx_of_stopped _ hs]
  | false => rw [clearCell, Act.run, whenRunning_of_not_stopped hs, whenRunning_of_not_stopped hs, tx_eq_txAll]

theorem clearBank_eq_script (s : State) (b : Bank) : clearBank s b = runScript (clearBankScript b) s := by
  have h0 : tx (cmd (bankCmd b)) (tx (cmd (colCmd 0)) s) = Act.run (fun m => (m, [cmd (colCmd 0), cmd (bankCmd b)])) s := by
    cases hs : s.stopped with
    | true => rw [Act.run_of_stopped _ hs, tx_of_stopped _ hs, tx_of_stopped _ hs]
    | false => rw [Act.run, whenRunning_of_not_stopped hs, txAll_cons, txAll_cons, txAll_nil]
  rw [clearBank, clearBankScript, runScript_cons, h0, runScript, List.foldl_map]
  congr 1
  funext s x
  exact clearCell_eq_act b s x

theorem clearBody_eq_script (s : State) : clearBody s = runScript clearScript s := by
  have : ∀ (bs : List Bank) (s : State), bs.foldl clearBank s = runScript (bs.flatMap clearBankScript) s := by
    intro bs
    induction bs with
    | nil => intro s; rfl
    | cons b bs ih =>
      intro s
      rw [List.foldl_cons, ih, List.flatMap_cons, runScript_append, clearBank_eq_script]
  exact this _ s

@[simp] theorem length_clearBankScript (b : Bank) : (clearBankScript b).length = 85 := by simp [clearBankScript]

theorem bigScript_writeZeros (b : Bank) (xs : List Column) (m : CellStore) :
    bigScript (xs.map (fun x m => (CellStore.write m x b 0#8, [dat 0#8]))) m =
      (xs.foldl (fun m x => m.write x b 0#8) m, List.replicate xs.length (dat 0#8)) := by
  induction xs generalizing m with
  | nil => rfl
  | cons x xs ih => simp [bigScript, ih, List.replicate_succ]

theorem bigScript_clearBank (b : Bank) (m : CellStore) :
    bigScript (clearBankScript b) m = ((List.finRange 84).foldl (fun m x => m.write x b 0#8) m, clearBankWrites b) := by
  simp [clearBankScript, bigScript_cons, bigScript_writeZeros, clearBankWrites]

/-- A part of one bank of CLEAR: the two address commands and then `k` columns. -/
theorem bigScript_clearBank_take (b : Bank) (k : Nat) (m : CellStore) :
    bigScript ((clearBankScript b).take (k + 1)) m =
      (((List.finRange 84).take k).foldl (fun m x => m.write x b 0#8) m,
        cmd (colCmd 0) :: cmd (bankCmd b) :: List.replicate (min k 84) (dat 0#8)) := by
  rw [clearBankScript, List.take_succ_cons, ← List.map_take, bigScript_cons, bigScript_writeZeros]
  simp

/-- The big step of CLEAR's body (R140). -/
theorem bigScript_clear (m : CellStore) : bigScript clearScript m = (clearBig m, clearWrites) := by
  have : ∀ (bs : List Bank) (m : CellStore),
      bigScript (bs.flatMap clearBankScript) m =
        (bs.foldl (fun m b => (List.finRange 84).foldl (fun m x => m.write x b 0#8) m) m, bs.flatMap clearBankWrites) := by
    intro bs
    induction bs with
    | nil => intro m; rfl
    | cons b bs ih => intro m; simp [List.flatMap_cons, bigScript_append, ih, bigScript_clearBank]
  unfold clearBig clearWrites clearScript
  exact this _ m

@[simp] theorem length_clearWrites : clearWrites.length = 516 := by
  simp [clearWrites, clearBankWrites, List.length_flatMap]

end Sys2Proof.Machine
end

