-- ==== Sys2Proof/Laws/Draw.lean ====
section
/-! SUPPORT. What drawing and clearing do to the framebuffer, pixel by pixel and cell by cell, and the one shape that SETPIXEL,
AXISLINE and LINE share: plot the command's points, then answer its code. -/

namespace Sys2Proof.Machine

/-! ## Pixels -/

theorem fbPixel_of_translate {x y : Int} {a : PixelAddr} (m : CellStore) (h : translate x y = some a) :
    fbPixel m x y = (fbRead m a.column a.bank).getLsbD a.bit.val := by simp [fbPixel, h]

/-- Two framebuffers that agree on every pixel agree on every cell (R21). -/
theorem fbRead_eq_of_fbPixel {m m' : CellStore} (h : ∀ x y, inX x → inY y → fbPixel m x y = fbPixel m' x y)
    (c : Column) (b : Bank) : fbRead m c b = fbRead m' c b := by
  apply BitVec.eq_of_getLsbD_eq
  intro k hk
  have ha := translate_surjective ⟨c, b, ⟨k, hk⟩⟩
  have hc := c.isLt; have hb := b.isLt
  have := h (c.val : Int) (8 * (b.val : Int) + (k : Int)) (by constructor <;> omega) (by constructor <;> omega)
  rwa [fbPixel_of_translate m ha, fbPixel_of_translate m' ha] at this

/-- A plot turns on its own pixel and no other (R100, R104). -/
theorem fbPixel_plotAct {q : Point} {a : PixelAddr} (m : CellStore) (h : translate q.1 q.2 = some a) (x y : Int) :
    fbPixel (plotAct q m).1 x y = (fbPixel m x y || decide ((x, y) = q)) := by
  rw [plotAct_of_translate m h]
  cases h' : translate x y with
  | none =>
    have : (x, y) ≠ q := by rintro rfl; simp [h'] at h
    simp [fbPixel, h', this]
  | some a' =>
    rw [fbPixel_of_translate _ h', fbPixel_of_translate _ h', fbRead_write]
    by_cases hab : a'.column = a.column ∧ a'.bank = a.bank
    · rw [if_pos hab, BitVec.getLsbD_or, bitMask_getLsbD, hab.1, hab.2]
      congr 1
      rw [decide_eq_decide]
      constructor
      · intro hbit
        obtain rfl : a' = a := by
          obtain ⟨c', b', k'⟩ := a'; obtain ⟨c, b, k⟩ := a
          simp only at hab hbit
          rw [hab.1, hab.2, Fin.ext hbit]
        exact Prod.ext (translate_injective h' h).1 (translate_injective h' h).2
      · rintro rfl
        rw [h] at h'
        rw [Option.some.inj h']
    · rw [if_neg hab]
      have : (x, y) ≠ q := by
        rintro rfl
        rw [h] at h'
        obtain rfl := Option.some.inj h'
        exact hab ⟨rfl, rfl⟩
      simp [this]

/-- A plot writes its own cell and no other (R47, R100). -/
theorem fbRead_plotAct {q : Point} {a : PixelAddr} (m : CellStore) (h : translate q.1 q.2 = some a) (c : Column) (b : Bank) :
    fbRead (plotAct q m).1 c b =
      if c = a.column ∧ b = a.bank then fbRead m c b ||| bitMask a.bit else fbRead m c b := by
  rw [plotAct_of_translate m h, fbRead_write]
  split_ifs with hc
  · rw [hc.1, hc.2]
  · rfl

theorem drawBig_cons {q : Point} (ps : List Point) (m : CellStore) :
    drawBig (q :: ps) m = ((drawBig ps (plotAct q m).1).1, (plotAct q m).2 ++ (drawBig ps (plotAct q m).1).2) := by
  simp [drawBig_eq_bigScript, bigScript_cons]

/-- Drawing turns on exactly the pixels drawn (R23, R104). -/
theorem fbPixel_drawBig {ps : List Point} (h : ∀ q ∈ ps, onDisplay q) (m : CellStore) (x y : Int) :
    fbPixel (drawBig ps m).1 x y = (fbPixel m x y || decide ((x, y) ∈ ps)) := by
  induction ps generalizing m with
  | nil => simp [drawBig]
  | cons q ps ih =>
    obtain ⟨a, ha⟩ := translate_of_onDisplay (h q List.mem_cons_self)
    rw [drawBig_cons, ih (fun p hp => h p (List.mem_cons_of_mem _ hp)), fbPixel_plotAct m ha, Bool.or_assoc]
    congr 1
    simp [List.mem_cons, ← Bool.decide_or]

/-- A cell under no drawn point is unchanged (R22). -/
theorem fbRead_drawBig {ps : List Point} (m : CellStore) (c : Column) (b : Bank)
    (h : ∀ q ∈ ps, ∀ a, translate q.1 q.2 = some a → ¬ (c = a.column ∧ b = a.bank)) :
    fbRead (drawBig ps m).1 c b = fbRead m c b := by
  induction ps generalizing m with
  | nil => rfl
  | cons q ps ih =>
    rw [drawBig_cons, ih _ (fun p hp => h p (List.mem_cons_of_mem _ hp))]
    cases ha : translate q.1 q.2 with
    | none => simp [plotAct, fbSet, ha]
    | some a => rw [fbRead_plotAct m ha, if_neg (h q List.mem_cons_self a ha)]

theorem drawBig_wf (ps : List Point) {m : CellStore} (h : Memory.wf m.cells) : Memory.wf (drawBig ps m).1.cells := by
  induction ps generalizing m with
  | nil => exact h
  | cons q ps ih =>
    rw [drawBig_cons]
    apply ih
    cases ha : translate q.1 q.2 with
    | none => simpa [plotAct, fbSet, ha] using h
    | some a => rw [plotAct_of_translate m ha]; exact CellStore.wf_write _ _ _ h

/-! ## Clearing -/

/-- Writing zero to a list of cells of one bank. -/
theorem fbRead_zeroColumns (b : Bank) (xs : List Column) (m : CellStore) (c : Column) (b' : Bank) :
    fbRead (xs.foldl (fun m x => m.write x b 0#8) m) c b' = if c ∈ xs ∧ b' = b then 0#8 else fbRead m c b' := by
  induction xs generalizing m with
  | nil => simp
  | cons x xs ih =>
    rw [List.foldl_cons, ih, fbRead_write]
    by_cases hb : b' = b <;> by_cases hx : c = x <;> by_cases hm : c ∈ xs <;> simp [hb, hx, hm]

/-- CLEAR leaves every cell zero (R140, R141). -/
theorem fbRead_clearBig (m : CellStore) (c : Column) (b : Bank) : fbRead (clearBig m) c b = 0#8 := by
  have : ∀ (bs : List Bank) (m : CellStore),
      fbRead (bs.foldl (fun m b => (List.finRange 84).foldl (fun m x => m.write x b 0#8) m) m) c b =
        if b ∈ bs then 0#8 else fbRead m c b := by
    intro bs
    induction bs with
    | nil => intro m; simp
    | cons b' bs ih =>
      intro m
      rw [List.foldl_cons, ih, fbRead_zeroColumns]
      by_cases h : b = b' <;> by_cases h' : b ∈ bs <;> simp [h, h']
  unfold clearBig
  rw [this]
  simp

theorem clearBig_wf {m : CellStore} (h : Memory.wf m.cells) : Memory.wf (clearBig m).cells := by
  have h1 : ∀ (b : Bank) (xs : List Column) (m : CellStore), Memory.wf m.cells →
      Memory.wf (xs.foldl (fun m x => CellStore.write m x b 0#8) m).cells := by
    intro b xs
    induction xs with
    | nil => exact fun m h => h
    | cons x xs ih => intro m h; rw [List.foldl_cons]; exact ih _ (CellStore.wf_write x b _ h)
  have h2 : ∀ (xs : List Column) (bs : List Bank) (m : CellStore), Memory.wf m.cells →
      Memory.wf (bs.foldl (fun m b => xs.foldl (fun m x => CellStore.write m x b 0#8) m) m).cells := by
    intro xs bs
    induction bs with
    | nil => exact fun m h => h
    | cons b bs ih => intro m h; rw [List.foldl_cons]; exact ih _ (h1 b xs m h)
  unfold clearBig
  exact h2 _ _ m h

theorem fbPixel_of_zero {m : CellStore} (h : ∀ c b, fbRead m c b = 0#8) (x y : Int) : fbPixel m x y = false := by
  unfold fbPixel
  cases translate x y with
  | none => rfl
  | some a => simp [h]

/-! ## The shape of the drawing commands -/

theorem pointsOf_onDisplay (i : Instr) : ∀ q ∈ pointsOf i, onDisplay q := by
  intro q hq
  cases i with
  | setPixel x y =>
    simp only [pointsOf] at hq
    split_ifs at hq with h
    · rw [List.mem_singleton] at hq; subst hq; exact h
    · exact absurd hq List.not_mem_nil
  | axisLine x y ori =>
    cases h : axisPoints x y ori with
    | none => simp [pointsOf, h] at hq
    | some ps => exact axisPoints_onDisplay h q (by simpa [pointsOf, h] using hq)
  | line x0 y0 x1 y1 =>
    cases h : linePoints x0 y0 x1 y1 with
    | none => simp [pointsOf, h] at hq
    | some ps => exact linePoints_onDisplay h q (by simpa [pointsOf, h] using hq)
  | clear => exact absurd hq List.not_mem_nil
  | init => exact absurd hq List.not_mem_nil

/-- AXISLINE's operands are valid exactly when it has points (R111). -/
theorem axisPoints_isSome_iff (x y ori : Int) :
    (axisPoints x y ori).isSome ↔ inX x ∧ inY y ∧ (ori = 0 ∨ ori = 1) := by
  unfold axisPoints
  split_ifs with h
  · rw [Option.isSome_map, Option.isSome_iff_ne_none, ne_eq, orientation_eq_none_iff]
    constructor
    · intro ho; exact ⟨h.1, h.2, by omega⟩
    · rintro ⟨-, -, ho⟩; omega
  · constructor
    · intro hc; simp at hc
    · rintro ⟨hx, hy, -⟩; exact absurd ⟨hx, hy⟩ h

theorem linePoints_isSome_iff (x0 y0 x1 y1 : Int) :
    (linePoints x0 y0 x1 y1).isSome ↔ inX x0 ∧ inY y0 ∧ inX x1 ∧ inY y1 := by
  unfold linePoints
  split_ifs with h
  · exact ⟨fun _ => h, fun _ => rfl⟩
  · exact ⟨fun hc => absurd hc (by simp), fun hc => absurd hc h⟩

/-- SETPIXEL, AXISLINE and LINE plot their points, none when they fail, and answer their code. -/
theorem exec_draw {i : Instr} (h : ¬ clearsDisplay i) (s : State) :
    exec i s = .next (respond (resultCode i) (plotAll (pointsOf i) s)) := by
  cases i with
  | setPixel x y =>
    by_cases hv : inX x ∧ inY y
    · obtain ⟨a, ha⟩ := translate_of_onDisplay (x := x) (y := y) hv
      simp only [exec, execSetPixel, fbSet_of_translate _ ha, pointsOf, if_pos hv, plotAll, List.foldl_cons, List.foldl_nil]
      have hc : resultCode (.setPixel x y) = codeOk := by simp [resultCode, validOperands, hv, codeOk]
      rw [hc]
      cases hs : s.stopped with
      | true => rw [plot_of_stopped _ _ hs, whenRunning_of_stopped hs]
      | false => rw [plot_of_translate hs ha, whenRunning_of_not_stopped hs, commitPixel_eq_txAll]
    · have hc : resultCode (.setPixel x y) = codePixelInvalid := by
        have : validOperands (.setPixel x y) = false := decide_eq_false hv
        simp [resultCode, this, codePixelInvalid]
      simp only [exec, execSetPixel, (fbSet_eq_none_iff x y s.fb).2 hv, pointsOf, if_neg hv, plotAll, List.foldl_nil, hc]
  | axisLine x y ori =>
    have hiff := axisPoints_isSome_iff x y ori
    cases hp : axisPoints x y ori with
    | none =>
      have hv : validOperands (.axisLine x y ori) = false := decide_eq_false fun hv => by simp [hp, hv] at hiff
      simp [exec, execAxisLine, hp, pointsOf, plotAll, resultCode, hv, codeLineInvalid]
    | some ps =>
      have hv : validOperands (.axisLine x y ori) = true := decide_eq_true (hiff.1 (by simp [hp]))
      simp [exec, execAxisLine, hp, pointsOf, resultCode, hv, codeOk]
  | line x0 y0 x1 y1 =>
    have hiff := linePoints_isSome_iff x0 y0 x1 y1
    cases hp : linePoints x0 y0 x1 y1 with
    | none =>
      have hv : validOperands (.line x0 y0 x1 y1) = false := decide_eq_false fun hv => by simp [hp, hv] at hiff
      simp [exec, execLine, hp, pointsOf, plotAll, resultCode, hv, codeLineInvalid]
    | some ps =>
      have hv : validOperands (.line x0 y0 x1 y1) = true := decide_eq_true (hiff.1 (by simp [hp]))
      simp [exec, execLine, hp, pointsOf, resultCode, hv, codeOk]
  | clear => exact absurd (.inl rfl) h
  | init => exact absurd (.inr rfl) h

/-- The big step of CLEAR (R140). -/
theorem bigStep_clear (m : CellStore) : bigStep .clear m = { fb := clearBig m, code := 0, writes := clearWrites } := by
  simp only [bigStep]

/-- The big step of INIT (R144). -/
theorem bigStep_init (m : CellStore) :
    bigStep .init m = { fb := clearBig m, code := 0, writes := Config.initSeq.map cmd ++ clearWrites } := by
  simp only [bigStep]

theorem bigStep_draw {i : Instr} (h : ¬ clearsDisplay i) (m : CellStore) :
    bigStep i m = { fb := (drawBig (pointsOf i) m).1, code := resultCode i, writes := (drawBig (pointsOf i) m).2 } := by
  cases i with
  | clear => exact absurd (.inl rfl) h
  | init => exact absurd (.inr rfl) h
  | _ => rfl

end Sys2Proof.Machine
end

