-- ==== Sys2Proof/Laws/Display.lean ====
section
/-! SUPPORT. The display behind the transport: it tells the address commands apart (20_memory R61), what a data write does
(R62), and that a triplet and a bank of CLEAR put into its RAM what they put into the framebuffer (R64). -/

namespace Sys2Proof.Machine

/-! ## The address commands -/

theorem codeCommand_column (x : Column) : codeCommand (0x80 + x.val) = .selectColumn x := by
  have hx := x.isLt
  rw [codeCommand, dif_pos (by omega), DisplayCommand.selectColumn.injEq, Fin.ext_iff]
  exact Nat.add_sub_cancel_left _ _

theorem codeCommand_bank (b : Bank) : codeCommand (0x40 + b.val) = .selectBank b := by
  have hb := b.isLt
  rw [codeCommand, dif_neg (by omega), dif_pos (by omega), DisplayCommand.selectBank.injEq, Fin.ext_iff]
  exact Nat.add_sub_cancel_left _ _

@[simp] theorem displayCommand_colCmd (x : Column) : displayCommand (colCmd x) = .selectColumn x := by
  have hx := x.isLt
  rw [displayCommand, colCmd, Equiv.symm_apply_apply, BitVec.toNat_ofNat, Nat.mod_eq_of_lt (by omega), codeCommand_column]

@[simp] theorem displayCommand_bankCmd (b : Bank) : displayCommand (bankCmd b) = .selectBank b := by
  have hb := b.isLt
  rw [displayCommand, bankCmd, Equiv.symm_apply_apply, BitVec.toNat_ofNat, Nat.mod_eq_of_lt (by omega), codeCommand_bank]

theorem take_colCmd {d : Display} (h : d.ready = true) (x : Column) : d.take (cmd (colCmd x)) = { d with column := x } := by
  simp [Display.take, h, cmd, Display.commandWrite]

theorem take_bankCmd {d : Display} (h : d.ready = true) (b : Bank) : d.take (cmd (bankCmd b)) = { d with bank := b } := by
  simp [Display.take, h, cmd, Display.commandWrite]

theorem take_dat {d : Display} (h : d.ready = true) (v : Byte) : d.take (dat v) = d.dataWrite v := by
  simp [Display.take, h, dat]

/-! ## A data write -/

@[simp] theorem advance_ready (d : Display) : d.advance.ready = d.ready := by unfold Display.advance; split <;> rfl
@[simp] theorem advance_ram (d : Display) : d.advance.ram = d.ram := by unfold Display.advance; split <;> rfl
@[simp] theorem dataWrite_ready (d : Display) (v : Byte) : (d.dataWrite v).ready = d.ready := by simp [Display.dataWrite]
@[simp] theorem dataWrite_ram (d : Display) (v : Byte) : (d.dataWrite v).ram = d.ram.write d.column d.bank v := by
  simp [Display.dataWrite]

/-- A data write stores at the pointer and nowhere else (R62). -/
theorem dataWrite_byte (d : Display) (v : Byte) (x : Column) (b : Bank) :
    (d.dataWrite v).byte x b = if x = d.column ∧ b = d.bank then v else d.byte x b := by
  simp only [Display.byte, dataWrite_ram, CellStore.readWith_write]

/-- A data write before the last column moves the pointer one column on (R62). -/
theorem dataWrite_pointer {d : Display} (v : Byte) (h : d.column.val + 1 < 84) :
    (d.dataWrite v).column = ⟨d.column.val + 1, h⟩ ∧ (d.dataWrite v).bank = d.bank := by
  simp [Display.dataWrite, Display.advance, h]

/-! ## A triplet -/

/-- What a triplet does to a ready display: the addressed byte, and nothing else of the RAM (R61, R62). -/
theorem take_triplet {d : Display} (h : d.ready = true) (a : PixelAddr) (v : Byte) :
    ((triplet a v).foldl Display.take d).ready = true ∧
      ∀ x b, ((triplet a v).foldl Display.take d).byte x b = if x = a.column ∧ b = a.bank then v else d.byte x b := by
  have h1 : ({ d with column := a.column } : Display).ready = true := h
  have h2 : ({ d with column := a.column, bank := a.bank } : Display).ready = true := h
  simp only [triplet, List.foldl_cons, List.foldl_nil, take_colCmd h, take_bankCmd h1, take_dat h2, dataWrite_ready,
    dataWrite_byte]
  exact ⟨h, fun x b => rfl⟩

/-- The display holds a framebuffer, byte for byte (R64). -/
def holds (d : Display) (m : CellStore) : Prop := d.ready = true ∧ ∀ x b, d.byte x b = fbRead m x b

/-- Drawing keeps the mirror (R64, R67). -/
theorem holds_drawBig {ps : List Point} {d : Display} {m : CellStore} (hd : holds d m) :
    holds ((drawBig ps m).2.foldl Display.take d) (drawBig ps m).1 := by
  induction ps generalizing d m with
  | nil => exact hd
  | cons q ps ih =>
    rw [drawBig_cons, List.foldl_append]
    apply ih
    cases ha : translate q.1 q.2 with
    | none => simpa [plotAct, fbSet, ha] using hd
    | some a =>
      rw [plotAct_of_translate m ha]
      obtain ⟨hr, hb⟩ := take_triplet hd.1 a (fbRead m a.column a.bank ||| bitMask a.bit)
      refine ⟨hr, fun x b => ?_⟩
      rw [hb, fbRead_write, hd.2]

/-! ## A bank of CLEAR -/

/-- A run of zero bytes lands in consecutive columns from the pointer (R62, R140). -/
theorem take_zeros {d : Display} (h : d.ready = true) (n : Nat) (hn : d.column.val + n ≤ 84) :
    ((List.replicate n (dat 0#8)).foldl Display.take d).ready = true ∧
      ∀ x b, ((List.replicate n (dat 0#8)).foldl Display.take d).byte x b =
        if b = d.bank ∧ d.column.val ≤ x.val ∧ x.val < d.column.val + n then 0#8 else d.byte x b := by
  induction n generalizing d with
  | zero =>
    refine ⟨h, fun x b => ?_⟩
    rw [if_neg (by omega)]
    rfl
  | succ n ih =>
    rw [List.replicate_succ, List.foldl_cons, take_dat h]
    cases n with
    | zero =>
      refine ⟨by simpa using h, fun x b => ?_⟩
      simp only [List.replicate_zero, List.foldl_nil, dataWrite_byte]
      congr 1
      rw [eq_iff_iff, Fin.ext_iff]
      constructor
      · rintro ⟨h1, h2⟩; exact ⟨h2, by omega, by omega⟩
      · rintro ⟨h1, h2, h3⟩; exact ⟨by omega, h1⟩
    | succ n =>
      obtain ⟨hc, hb⟩ := dataWrite_pointer (d := d) 0#8 (by omega)
      obtain ⟨hr, hbytes⟩ := ih (d := d.dataWrite 0#8) (by simpa using h) (by rw [hc]; simp only; omega)
      refine ⟨hr, fun x b => ?_⟩
      rw [hbytes, dataWrite_byte, hc, hb]
      simp only [Fin.ext_iff]
      by_cases hbank : b.val = d.bank.val <;> simp only [hbank, true_and, false_and, and_false, if_false, and_true]
      split_ifs <;> first | rfl | (exfalso; omega)

/-- A bank of CLEAR zeroes that bank of a ready display and nothing else (R140). -/
theorem take_clearBank {d : Display} (h : d.ready = true) (b : Bank) :
    ((clearBankWrites b).foldl Display.take d).ready = true ∧
      ∀ x b', ((clearBankWrites b).foldl Display.take d).byte x b' = if b' = b then 0#8 else d.byte x b' := by
  have h1 : ({ d with column := 0 } : Display).ready = true := h
  have h2 : ({ d with column := 0, bank := b } : Display).ready = true := h
  obtain ⟨hr, hb⟩ := take_zeros h2 84 (by simp)
  simp only [clearBankWrites, List.foldl_cons, take_colCmd h, take_bankCmd h1]
  refine ⟨hr, fun x b' => ?_⟩
  have hx := x.isLt
  rw [hb]
  simp only [Fin.val_zero, Nat.zero_le, zero_add, hx, and_true]
  rfl

/-- CLEAR zeroes the whole RAM of a ready display (R140, R141). -/
theorem take_clearWrites {d : Display} (h : d.ready = true) :
    (clearWrites.foldl Display.take d).ready = true ∧ ∀ x b, (clearWrites.foldl Display.take d).byte x b = 0#8 := by
  have : ∀ (bs : List Bank) (d : Display), d.ready = true →
      ((bs.flatMap clearBankWrites).foldl Display.take d).ready = true ∧
        ∀ x b, ((bs.flatMap clearBankWrites).foldl Display.take d).byte x b = if b ∈ bs then 0#8 else d.byte x b := by
    intro bs
    induction bs with
    | nil => intro d hd; exact ⟨hd, by simp⟩
    | cons b bs ih =>
      intro d hd
      obtain ⟨hr, hb⟩ := take_clearBank hd b
      obtain ⟨hr', hb'⟩ := ih _ hr
      rw [List.flatMap_cons, List.foldl_append]
      refine ⟨hr', fun x b' => ?_⟩
      rw [hb', hb]
      by_cases h1 : b' = b <;> by_cases h2 : b' ∈ bs <;> simp [h1, h2]
  unfold clearWrites
  obtain ⟨hr, hb⟩ := this (List.finRange 6) d h
  refine ⟨hr, fun x b => ?_⟩
  have := hb x b
  rwa [if_pos (List.mem_finRange b)] at this

/-- Part of one bank of CLEAR leaves every other bank of a ready display alone. -/
theorem take_clearBank_take {d : Display} (h : d.ready = true) (b : Bank) (n : Nat) :
    (((clearBankWrites b).take n).foldl Display.take d).ready = true ∧
      ∀ x b', b' ≠ b → (((clearBankWrites b).take n).foldl Display.take d).byte x b' = d.byte x b' := by
  match n with
  | 0 => exact ⟨h, fun _ _ _ => rfl⟩
  | 1 =>
    simp only [clearBankWrites, List.take_succ_cons, List.take_zero, List.foldl_cons, List.foldl_nil, take_colCmd h]
    exact ⟨h, fun _ _ _ => rfl⟩
  | n + 2 =>
    rw [clearBankWrites]
    simp only [List.take_succ_cons, List.foldl_cons, take_colCmd h]
    rw [take_bankCmd (by exact h), List.take_replicate]
    obtain ⟨hr, hb⟩ := take_zeros (d := { { d with column := 0 } with bank := b }) h (min n 84) (by simp)
    refine ⟨hr, fun x b' hne => ?_⟩
    rw [hb, if_neg (fun hh => hne hh.1)]
    rfl

/-- What a ready display holds when it has taken the first `n` writes of a CLEAR over some banks: the banks completed are zero,
and a bank not begun is as before. -/
theorem take_clearBanks_take {d : Display} (bs : List Bank) (hbs : bs.Nodup) (h : d.ready = true) (n : Nat) :
    ∀ x b, (b ∈ bs.take (n / 86) → (((bs.flatMap clearBankWrites).take n).foldl Display.take d).byte x b = 0#8) ∧
      (b ∉ bs.take ((n + 85) / 86) → (((bs.flatMap clearBankWrites).take n).foldl Display.take d).byte x b = d.byte x b) := by
  induction bs generalizing d n with
  | nil => intro x b; simp
  | cons b' bs ih =>
    intro x b
    have hlen : (clearBankWrites b').length = 86 := by simp [clearBankWrites]
    rw [List.flatMap_cons]
    by_cases hn : n < 86
    · rw [List.take_append_of_le_length (by omega), show n / 86 = 0 by omega]
      refine ⟨fun hb => by simp at hb, fun hb => ?_⟩
      match n with
      | 0 => rfl
      | n + 1 =>
        rw [show (n + 1 + 85) / 86 = 1 by omega, List.take_succ_cons] at hb
        exact (take_clearBank_take h b' _).2 x b (by simpa using hb)
    · rw [List.take_append, List.take_of_length_le (l := clearBankWrites b') (by omega), hlen, List.foldl_append]
      obtain ⟨hr, hbyte⟩ := take_clearBank h b'
      obtain ⟨i1, i2⟩ := ih (List.nodup_cons.1 hbs).2 hr (n - 86) x b
      rw [show n / 86 = (n - 86) / 86 + 1 by omega, show (n + 85) / 86 = (n - 86 + 85) / 86 + 1 by omega,
        List.take_succ_cons, List.take_succ_cons]
      constructor
      · intro hb
        rcases List.mem_cons.1 hb with rfl | hb
        · rw [i2 (fun hh => (List.nodup_cons.1 hbs).1 (List.mem_of_mem_take hh)), hbyte, if_pos rfl]
        · exact i1 hb
      · intro hb
        rw [List.mem_cons, not_or] at hb
        rw [i2 hb.2, hbyte, if_neg hb.1]

/-- What a ready display holds when it has taken the first `n` writes of CLEAR. -/
theorem take_clearWrites_take {d : Display} (h : d.ready = true) (n : Nat) (x : Column) (b : Bank) :
    (b.val < n / 86 → ((clearWrites.take n).foldl Display.take d).byte x b = 0#8) ∧
      ((n + 85) / 86 ≤ b.val → ((clearWrites.take n).foldl Display.take d).byte x b = d.byte x b) := by
  have hmem : ∀ k, b ∈ (List.finRange 6).take k ↔ b.val < k := by
    intro k
    have hbl := b.isLt
    rw [List.mem_take_iff_getElem]
    simp only [List.getElem_finRange, Fin.ext_iff, Fin.val_cast, List.length_finRange]
    exact ⟨fun ⟨i, hi, hib⟩ => by omega, fun hk => ⟨b.val, by omega, rfl⟩⟩
  have hb := take_clearBanks_take (List.finRange 6) (List.nodup_finRange 6) h n x b
  rw [hmem, hmem, not_lt] at hb
  unfold clearWrites
  exact hb

theorem holds_clear {d : Display} (h : d.ready = true) (m : CellStore) :
    holds (clearWrites.foldl Display.take d) (clearBig m) := by
  obtain ⟨hr, hb⟩ := take_clearWrites h
  exact ⟨hr, fun x b => by rw [hb, fbRead_clearBig]⟩

/-- Every byte the display takes keeps its RAM in canonical form. -/
theorem take_wf (d : Display) (e : Tx) (h : Memory.wf d.ram.cells) : Memory.wf (d.take e).ram.cells := by
  unfold Display.take
  split_ifs
  · rw [dataWrite_ram]; exact CellStore.wf_write _ _ _ h
  · unfold Display.commandWrite; split
    · exact h
    · exact h
    · exact Memory.wf_nil
  · exact Memory.wf_nil

theorem takes_wf (es : List Tx) (d : Display) (h : Memory.wf d.ram.cells) : Memory.wf (es.foldl Display.take d).ram.cells := by
  induction es generalizing d with
  | nil => exact h
  | cons e es ih => exact ih _ (take_wf d e h)

end Sys2Proof.Machine
end

