-- ==== Sys2Proof/Laws/Exec.lean ====
section
/-! SUPPORT. What a command can do, said once: from a state that can run it, it either completes, and the state it answers is
written out, or it is stopped by the transport, and that state is written out; a stopped engine does nothing. And what a
step can do. -/

namespace Sys2Proof.Machine

/-! ## Scripts, in every case -/

/-- Where a script leaves the engine when the transport completes `ws` and the framebuffer has become `m`. -/
def doneState (m : CellStore) (ws : List Tx) (s : State) : State :=
  { deliver ws s with fb := m, transport := s.transport.after ws.length }

/-- Where a script leaves the engine when the transport stops it at `e`, having completed `ws`, with framebuffer `m`. -/
def hungState (m : CellStore) (ws : List Tx) (e : Tx) (s : State) : State :=
  hang e { deliver ws s with fb := m, transport := .hangsAfter 0 }

@[simp] theorem doneState_stopped (m : CellStore) (ws : List Tx) (s : State) : (doneState m ws s).stopped = s.stopped := rfl
@[simp] theorem hungState_stopped (m : CellStore) (ws : List Tx) (e : Tx) (s : State) : (hungState m ws e s).stopped = true :=
  stopped_hang _ _

section doneState
variable (m : CellStore) (ws : List Tx) (e : Tx) (s : State)
@[simp] theorem doneState_fb : (doneState m ws s).fb = m := rfl
@[simp] theorem doneState_op : (doneState m ws s).op = s.op := rfl
@[simp] theorem doneState_p0 : (doneState m ws s).p0 = s.p0 := rfl
@[simp] theorem doneState_p1 : (doneState m ws s).p1 = s.p1 := rfl
@[simp] theorem doneState_p2 : (doneState m ws s).p2 = s.p2 := rfl
@[simp] theorem doneState_p3 : (doneState m ws s).p3 = s.p3 := rfl
@[simp] theorem doneState_busy : (doneState m ws s).busy = s.busy := rfl
@[simp] theorem doneState_fault : (doneState m ws s).fault = s.fault := rfl
@[simp] theorem doneState_rsp : (doneState m ws s).rsp = s.rsp := rfl
@[simp] theorem doneState_responses : (doneState m ws s).responses = s.responses := rfl
@[simp] theorem doneState_trace : (doneState m ws s).trace = s.trace ++ ws := rfl
@[simp] theorem doneState_outstanding : (doneState m ws s).outstanding = s.outstanding := rfl
@[simp] theorem doneState_transport : (doneState m ws s).transport = s.transport.after ws.length := rfl
@[simp] theorem doneState_display : (doneState m ws s).display = ws.foldl Display.take s.display := rfl
@[simp] theorem doneState_inputs : (doneState m ws s).inputs = s.inputs := rfl
@[simp] theorem hungState_fb : (hungState m ws e s).fb = m := rfl
@[simp] theorem hungState_op : (hungState m ws e s).op = s.op := rfl
@[simp] theorem hungState_p0 : (hungState m ws e s).p0 = s.p0 := rfl
@[simp] theorem hungState_p1 : (hungState m ws e s).p1 = s.p1 := rfl
@[simp] theorem hungState_p2 : (hungState m ws e s).p2 = s.p2 := rfl
@[simp] theorem hungState_p3 : (hungState m ws e s).p3 = s.p3 := rfl
@[simp] theorem hungState_busy : (hungState m ws e s).busy = s.busy := rfl
@[simp] theorem hungState_fault : (hungState m ws e s).fault = s.fault := rfl
@[simp] theorem hungState_rsp : (hungState m ws e s).rsp = s.rsp := rfl
@[simp] theorem hungState_responses : (hungState m ws e s).responses = s.responses := rfl
@[simp] theorem hungState_trace : (hungState m ws e s).trace = s.trace ++ ws := rfl
@[simp] theorem hungState_outstanding : (hungState m ws e s).outstanding = some e := rfl
@[simp] theorem hungState_transport : (hungState m ws e s).transport = .hangsAfter 0 := rfl
@[simp] theorem hungState_inputs : (hungState m ws e s).inputs = s.inputs := rfl
end doneState

theorem runScript_done (gs : List Act) {s : State} (h : s.stopped = false)
    (ha : s.transport.allows (bigScript gs s.fb).2.length) :
    runScript gs s = doneState (bigScript gs s.fb).1 (bigScript gs s.fb).2 s := runScript_allowed gs h ha

/-! ## SETPIXEL, AXISLINE, LINE -/

/-- A drawing command that the transport completes. -/
theorem exec_draw_done {i : Instr} (hi : ¬ clearsDisplay i) {s : State} (h : s.stopped = false)
    (ha : s.transport.allows (drawBig (pointsOf i) s.fb).2.length) :
    exec i s = .next (respond (resultCode i)
      (doneState (drawBig (pointsOf i) s.fb).1 (drawBig (pointsOf i) s.fb).2 s)) := by
  rw [exec_draw hi, plotAll_eq_script (pointsOf_onDisplay i)]
  rw [drawBig_eq_bigScript] at ha ⊢
  rw [runScript_done _ h ha]

/-- The first triplets of a drawing are the drawing of its first points. -/
theorem length_drawBig_take {ps : List Point} (h : ∀ q ∈ ps, onDisplay q) (k : Nat) (m : CellStore) :
    (drawBig (ps.take k) m).2.length = 3 * min k ps.length := by
  rw [length_drawBig (fun q hq => h q (List.mem_of_mem_take hq)), List.length_take]

/-- A drawing command that the transport stops after `n` writes: the framebuffer has every point whose triplet was begun. -/
theorem exec_draw_hung {i : Instr} (hi : ¬ clearsDisplay i) {s : State} {n : Nat} (h : s.stopped = false)
    (hp : s.transport = .hangsAfter n) (hn : n < (drawBig (pointsOf i) s.fb).2.length) :
    ∃ e, (drawBig (pointsOf i) s.fb).2[n]? = some e ∧
      exec i s = .next (hungState (drawBig ((pointsOf i).take (n / 3 + 1)) s.fb).1
        ((drawBig (pointsOf i) s.fb).2.take n) e s) := by
  rw [exec_draw hi, plotAll_eq_script (pointsOf_onDisplay i)]
  have hd := drawBig_eq_bigScript
  obtain ⟨k, e, he, hk, hlo, hhi, hrun⟩ := runScript_blocked ((pointsOf i).map plotAct) h hp (by rwa [← hd])
  rw [← List.map_take, ← hd, length_drawBig_take (pointsOf_onDisplay i)] at hlo hhi
  rw [List.length_map] at hk
  have hkn : k = n / 3 := by omega
  subst hkn
  refine ⟨e, by rw [hd]; exact he, ?_⟩
  rw [hrun, respond_of_stopped _ (stopped_hang _ _), ← List.map_take, ← hd, ← hd]
  rfl

/-! ## CLEAR -/

theorem exec_clear_done {s : State} (h : s.stopped = false) (ha : s.transport.allows clearWrites.length) :
    exec .clear s = .next (respond 0 (doneState (clearBig s.fb) clearWrites s)) := by
  have := runScript_done clearScript h (by rwa [bigScript_clear])
  rw [bigScript_clear] at this
  rw [exec, execClear, clearBody_eq_script, this]
  rfl

/-- How far the framebuffer of a CLEAR over some banks has come when `n` of its writes are complete and the next is stuck: the
banks before the stuck one are zero, the stuck one is zero up to the stuck column (R140, D19). -/
theorem clearScript_stuck (bs : List Bank) (m : CellStore) (n k : Nat)
    (hlo : (bigScript ((bs.flatMap clearBankScript).take k) m).2.length ≤ n)
    (hhi : n < (bigScript ((bs.flatMap clearBankScript).take (k + 1)) m).2.length) (c : Column) (b : Bank) :
    fbRead (bigScript ((bs.flatMap clearBankScript).take (k + 1)) m).1 c b =
      if b ∈ bs.take (n / 86) ∨ bs[n / 86]? = some b ∧ c.val + 2 ≤ n % 86 then 0#8 else fbRead m c b := by
  induction bs generalizing m n k with
  | nil => simp [bigScript] at hhi
  | cons b' bs ih =>
    rw [List.flatMap_cons] at hlo hhi ⊢
    by_cases hk : k + 1 ≤ 85
    · rw [List.take_append_of_le_length (by simpa using hk)] at hhi ⊢
      rw [List.take_append_of_le_length (by simp; omega)] at hlo
      rw [bigScript_clearBank_take] at hhi ⊢
      simp only [List.length_cons, List.length_replicate] at hhi
      have hn : n / 86 = 0 := by omega
      have hn' : n % 86 = n := by omega
      have hkn : k = n - 1 := by
        cases k with
        | zero => omega
        | succ k =>
          rw [bigScript_clearBank_take] at hlo
          simp only [List.length_cons, List.length_replicate] at hlo
          omega
      rw [fbRead_zeroColumns, hn, hn']
      have hmem : c ∈ (List.finRange 84).take k ↔ c.val + 2 ≤ n := by
        rw [List.mem_take_iff_getElem]
        constructor
        · rintro ⟨i, hi, rfl⟩
          simp at hi ⊢
          omega
        · intro h
          have := c.isLt
          exact ⟨c.val, by simp; omega, by simp⟩
      simp only [hmem, List.take_zero, List.not_mem_nil, false_or, List.getElem?_cons_zero, Option.some.injEq]
      by_cases h1 : b = b' <;> by_cases h2 : c.val + 2 ≤ n <;> simp [h1, h2, eq_comm]
    · have htake : ∀ j, 85 ≤ j → (clearBankScript b' ++ bs.flatMap clearBankScript).take j =
          clearBankScript b' ++ (bs.flatMap clearBankScript).take (j - 85) := by
        intro j hj
        rw [List.take_append, List.take_of_length_le (by simpa using hj), length_clearBankScript]
      rw [htake _ (by omega)] at hlo hhi ⊢
      rw [show k + 1 - 85 = (k - 85) + 1 by omega] at hhi ⊢
      rw [bigScript_append, bigScript_clearBank] at hlo hhi ⊢
      simp only [List.length_append] at hlo hhi ⊢
      rw [show (clearBankWrites b').length = 86 by simp [clearBankWrites]] at hlo hhi
      rw [ih _ (n - 86) (k - 85) (by omega) (by omega), fbRead_zeroColumns]
      have h1 : n / 86 = (n - 86) / 86 + 1 := by omega
      have h2 : n % 86 = (n - 86) % 86 := by omega
      rw [h1, h2, List.take_succ_cons, List.getElem?_cons_succ]
      simp only [List.mem_cons, List.mem_finRange, true_and]
      by_cases g1 : b = b' <;> by_cases g2 : b ∈ bs.take ((n - 86) / 86) <;> simp [g1, g2]

/-- What CLEAR has zeroed when `n` of its writes are complete and the next is stuck: every cell of the banks before the stuck
one, and the stuck bank's cells up to the stuck column (R140, D19). -/
def clearedAt (n : Nat) (c : Column) (b : Bank) : Prop := b.val < n / 86 ∨ b.val = n / 86 ∧ c.val + 2 ≤ n % 86

/-- CLEAR's body stopped by the transport after `n` writes. -/
theorem clearBody_hung {s : State} {n : Nat} (h : s.stopped = false) (hp : s.transport = .hangsAfter n)
    (hn : n < clearWrites.length) :
    ∃ e m, clearWrites[n]? = some e ∧ clearBody s = hungState m (clearWrites.take n) e s ∧
      (∀ c b, clearedAt n c b → fbRead m c b = 0#8) ∧ ∀ c b, ¬ clearedAt n c b → fbRead m c b = fbRead s.fb c b := by
  have hb := bigScript_clear s.fb
  obtain ⟨k, e, he, -, hlo, hhi, hrun⟩ := runScript_blocked clearScript h hp (by rw [hb]; exact hn)
  rw [hb] at he hrun
  have hcell := clearScript_stuck (List.finRange 6) s.fb n k hlo hhi
  have hiff : ∀ c b, (b ∈ (List.finRange 6).take (n / 86) ∨ (List.finRange 6)[n / 86]? = some b ∧ c.val + 2 ≤ n % 86) ↔
      clearedAt n c b := by
    intro c b
    have hlt : n / 86 < 6 := by rw [length_clearWrites] at hn; omega
    have hbl := b.isLt
    rw [List.mem_take_iff_getElem, List.getElem?_eq_getElem (by simpa using hlt)]
    simp only [List.getElem_finRange, Option.some.injEq, Fin.ext_iff, Fin.val_cast, List.length_finRange, clearedAt]
    constructor
    · rintro (⟨i, hi, hib⟩ | ⟨h1, h2⟩)
      · left; omega
      · right; omega
    · rintro (h1 | ⟨h1, h2⟩)
      · exact .inl ⟨b.val, by omega, rfl⟩
      · right; omega
  refine ⟨e, _, he, by rw [clearBody_eq_script, hrun]; rfl, fun c b hc => ?_, fun c b hc => ?_⟩
  · exact (hcell c b).trans (if_pos ((hiff c b).2 hc))
  · exact (hcell c b).trans (if_neg (fun h => hc ((hiff c b).1 h)))

theorem exec_clear_hung {s : State} {n : Nat} (h : s.stopped = false) (hp : s.transport = .hangsAfter n)
    (hn : n < clearWrites.length) :
    ∃ e m, clearWrites[n]? = some e ∧ exec .clear s = .next (hungState m (clearWrites.take n) e s) ∧
      (∀ c b, clearedAt n c b → fbRead m c b = 0#8) ∧ ∀ c b, ¬ clearedAt n c b → fbRead m c b = fbRead s.fb c b := by
  obtain ⟨e, m, he, hrun, hm⟩ := clearBody_hung h hp hn
  exact ⟨e, m, he, by rw [exec, execClear, hrun, respond_of_stopped _ (hungState_stopped _ _ _ _)], hm⟩

/-! ## INIT -/

/-- The command writes of the configuration phase (R144). -/
def configWrites : List Tx := Config.initSeq.map cmd

/-- The machine after INIT's first two phases, when the transport completes them (R144, R145). -/
def configuredState (s : State) : State :=
  { doneState s.fb configWrites { s with display := s.display.unknown } with
    display := (configWrites.foldl Display.take s.display.unknown).configured }

section configuredState
variable (s : State)
@[simp] theorem configuredState_fb : (configuredState s).fb = s.fb := rfl
@[simp] theorem configuredState_op : (configuredState s).op = s.op := rfl
@[simp] theorem configuredState_p0 : (configuredState s).p0 = s.p0 := rfl
@[simp] theorem configuredState_p1 : (configuredState s).p1 = s.p1 := rfl
@[simp] theorem configuredState_p2 : (configuredState s).p2 = s.p2 := rfl
@[simp] theorem configuredState_p3 : (configuredState s).p3 = s.p3 := rfl
@[simp] theorem configuredState_busy : (configuredState s).busy = s.busy := rfl
@[simp] theorem configuredState_fault : (configuredState s).fault = s.fault := rfl
@[simp] theorem configuredState_rsp : (configuredState s).rsp = s.rsp := rfl
@[simp] theorem configuredState_responses : (configuredState s).responses = s.responses := rfl
@[simp] theorem configuredState_trace : (configuredState s).trace = s.trace ++ configWrites := rfl
@[simp] theorem configuredState_outstanding : (configuredState s).outstanding = s.outstanding := rfl
@[simp] theorem configuredState_transport : (configuredState s).transport = s.transport.after configWrites.length := rfl
@[simp] theorem configuredState_display : (configuredState s).display = (configWrites.foldl Display.take s.display.unknown).configured := rfl
@[simp] theorem configuredState_inputs : (configuredState s).inputs = s.inputs := rfl
end configuredState

theorem configure_done {s : State} (h : s.stopped = false) (ha : s.transport.allows configWrites.length) :
    configure (powerSeq s) = configuredState s := by
  have hpow : powerSeq s = { s with display := s.display.unknown } := whenRunning_of_not_stopped h
  have h' : (powerSeq s).stopped = false := by rw [hpow]; exact h
  rw [configure, txAll_allowed h' (by rw [hpow]; exact ha), whenRunning_of_not_stopped (by exact h'), hpow]
  rfl

theorem configure_hung {s : State} {n : Nat} (h : s.stopped = false) (hp : s.transport = .hangsAfter n)
    (hn : n < configWrites.length) :
    ∃ e, configWrites[n]? = some e ∧
      configure (powerSeq s) = hungState s.fb (configWrites.take n) e { s with display := s.display.unknown } := by
  have hpow : powerSeq s = { s with display := s.display.unknown } := whenRunning_of_not_stopped h
  have h' : (powerSeq s).stopped = false := by rw [hpow]; exact h
  have he : configWrites[n]? = some configWrites[n] := List.getElem?_eq_getElem hn
  refine ⟨_, he, ?_⟩
  rw [configure, show Config.initSeq.map cmd = configWrites from rfl, txAll_blocked h' (by rw [hpow]; exact hp) he, whenRunning_of_stopped (stopped_hang _ _), hpow]
  rfl

@[simp] theorem configuredState_stopped (s : State) : (configuredState s).stopped = s.stopped := rfl

theorem exec_init_done {s : State} (h : s.stopped = false)
    (ha : s.transport.allows (configWrites ++ clearWrites).length) :
    exec .init s = .next (respond 0 (doneState (clearBig s.fb) clearWrites (configuredState s))) := by
  rw [List.length_append, Transport.allows_add] at ha
  have hrun := runScript_done clearScript (s := configuredState s) h (by rw [bigScript_clear]; exact ha.2)
  rw [bigScript_clear] at hrun
  rw [exec, execInit, configure_done h ha.1, clearBody_eq_script, hrun]
  rfl

/-- INIT stopped by the transport in its configuration phase. -/
theorem exec_init_hung_configuring {s : State} {n : Nat} (h : s.stopped = false) (hp : s.transport = .hangsAfter n)
    (hn : n < configWrites.length) :
    ∃ e, configWrites[n]? = some e ∧
      exec .init s = .next (hungState s.fb (configWrites.take n) e { s with display := s.display.unknown }) := by
  obtain ⟨e, he, hrun⟩ := configure_hung h hp hn
  refine ⟨e, he, ?_⟩
  rw [exec, execInit, hrun, clearBody_eq_script, runScript_of_stopped _ (hungState_stopped _ _ _ _),
    respond_of_stopped _ (hungState_stopped _ _ _ _)]

/-- INIT stopped by the transport in its clearing phase. -/
theorem exec_init_hung_clearing {s : State} {n : Nat} (h : s.stopped = false) (hp : s.transport = .hangsAfter n)
    (hle : configWrites.length ≤ n) (hn : n < configWrites.length + clearWrites.length) :
    ∃ e m, clearWrites[n - configWrites.length]? = some e ∧
      exec .init s = .next (hungState m (clearWrites.take (n - configWrites.length)) e (configuredState s)) ∧
      (∀ c b, clearedAt (n - configWrites.length) c b → fbRead m c b = 0#8) ∧
      ∀ c b, ¬ clearedAt (n - configWrites.length) c b → fbRead m c b = fbRead s.fb c b := by
  have hc := configure_done h (by rw [hp]; exact hle)
  obtain ⟨e, m, he, hrun, hm⟩ := clearBody_hung (s := configuredState s) (n := n - configWrites.length) h
    (by show (s.transport.after configWrites.length) = _; rw [hp]; rfl) (by omega)
  refine ⟨e, m, he, ?_, hm⟩
  rw [exec, execInit, hc, hrun, respond_of_stopped _ (hungState_stopped _ _ _ _)]

/-! ## A stopped engine -/

/-- A halted or blocked engine makes no action of any command (R28, R57). -/
theorem exec_of_stopped (i : Instr) {s : State} (h : s.stopped = true) : exec i s = .next s := by
  by_cases hi : clearsDisplay i
  · have hclear : clearBody s = s := by rw [clearBody_eq_script, runScript_of_stopped _ h]
    rcases hi with rfl | rfl
    · rw [exec, execClear, hclear, respond_of_stopped _ h]
    · have hpow : powerSeq s = s := whenRunning_of_stopped h
      have hconf : configure s = s := by rw [configure, txAll_of_stopped _ h, whenRunning_of_stopped h]
      rw [exec, execInit, hpow, hconf, hclear, respond_of_stopped _ h]
  · rw [exec_draw hi, plotAll_eq_script (pointsOf_onDisplay i), runScript_of_stopped _ h, respond_of_stopped _ h]

/-- Every command answers a next state (R185, with R57 for the transport that hangs). -/
theorem exec_next (i : Instr) (s : State) : ∃ t, exec i s = .next t := by
  by_cases hi : clearsDisplay i
  · rcases hi with rfl | rfl
    · exact ⟨_, rfl⟩
    · exact ⟨_, rfl⟩
  · exact ⟨_, exec_draw hi s⟩

/-- What every command does to the control state, the responses, the inputs and the trace, in any state. -/
theorem exec_control (i : Instr) (s : State) :
    ∃ t, exec i s = .next t ∧ (s.stopped = true → t = s) ∧ t.inputs = s.inputs ∧ (∃ ws, t.trace = s.trace ++ ws) ∧
      t.fault = s.fault ∧
      (s.stopped = false →
        (t.outstanding = none ∧ t.busy = false ∧ t.responses = s.responses ++ [t.rsp]) ∨
        (t.outstanding ≠ none ∧ t.busy = s.busy ∧ t.rsp = s.rsp ∧ t.responses = s.responses)) := by
  cases hs : s.stopped with
  | true => exact ⟨s, exec_of_stopped i hs, fun _ => rfl, rfl, ⟨[], by simp⟩, rfl, by simp⟩
  | false =>
    have hf := ((stopped_eq_false_iff s).1 hs)
    by_cases hi : clearsDisplay i
    · rcases hi with rfl | rfl
      · by_cases ha : s.transport.allows clearWrites.length
        · refine ⟨_, exec_clear_done hs ha, by simp, by simp, ⟨clearWrites, by simp⟩, by simp, fun _ => .inl ?_⟩
          rw [respond_of_not_stopped _ (by simpa using hs)]; exact ⟨hf.2, rfl, rfl⟩
        · obtain ⟨m, hm, hlt⟩ := (Transport.not_allows_iff _ _).1 ha
          obtain ⟨e, k, -, he, -⟩ := exec_clear_hung hs hm hlt
          exact ⟨_, he, by simp, by simp, ⟨_, hungState_trace _ _ _ _⟩, by simp, fun _ => .inr (by simp)⟩
      · by_cases ha : s.transport.allows (configWrites ++ clearWrites).length
        · refine ⟨_, exec_init_done hs ha, by simp, by simp, ⟨configWrites ++ clearWrites, by simp⟩, by simp, fun _ => .inl ?_⟩
          rw [respond_of_not_stopped _ (by simpa using hs)]; exact ⟨hf.2, rfl, rfl⟩
        · obtain ⟨m, hm, hlt⟩ := (Transport.not_allows_iff _ _).1 ha
          by_cases hlt' : m < configWrites.length
          · obtain ⟨e, -, he⟩ := exec_init_hung_configuring hs hm hlt'
            exact ⟨_, he, by simp, by simp, ⟨_, hungState_trace _ _ _ _⟩, by simp, fun _ => .inr (by simp)⟩
          · obtain ⟨e, k, -, he, -⟩ := exec_init_hung_clearing hs hm (by omega) (by rw [List.length_append] at hlt; omega)
            exact ⟨_, he, by simp, by simp, ⟨configWrites ++ _, by rw [hungState_trace, configuredState_trace, List.append_assoc]⟩, by simp, fun _ => .inr (by simp)⟩
    · by_cases ha : s.transport.allows (drawBig (pointsOf i) s.fb).2.length
      · refine ⟨_, exec_draw_done hi hs ha, by simp, by simp, ⟨_, by rw [respond_trace, doneState_trace]⟩, by simp, fun _ => .inl ?_⟩
        rw [respond_of_not_stopped _ (by simpa using hs)]; exact ⟨hf.2, rfl, rfl⟩
      · obtain ⟨m, hm, hlt⟩ := (Transport.not_allows_iff _ _).1 ha
        obtain ⟨e, -, he⟩ := exec_draw_hung hi hs hm hlt
        exact ⟨_, he, by simp, by simp, ⟨_, hungState_trace _ _ _ _⟩, by simp, fun _ => .inr (by simp)⟩

/-- A property of the framebuffer that every cell write keeps, and one of the display that every event keeps, hold after a
command if they held before it. -/
theorem exec_preserves (i : Instr) (s t : State) (h : exec i s = .next t) (P : CellStore → Prop) (Q : Display → Prop)
    (hP : ∀ m x b v, P m → P (m.write x b v)) (hQ : ∀ d e, Q d → Q (d.take e)) (hQu : ∀ d, Q d → Q d.unknown)
    (hQc : ∀ d, Q d → Q d.configured) (p : P s.fb) (q : Q s.display) : P t.fb ∧ Q t.display := by
  have hQs : ∀ (es : List Tx) d, Q d → Q (es.foldl Display.take d) := by
    intro es; induction es with
    | nil => intro d h; exact h
    | cons e es ih => intro d h; exact ih _ (hQ d e h)
  have htx : ∀ e (s : State), P s.fb → Q s.display → P (tx e s).fb ∧ Q (tx e s).display := by
    intro e s p q
    rw [tx]
    cases hs : s.stopped with
    | true => rw [whenRunning_of_stopped hs]; exact ⟨p, q⟩
    | false =>
      rw [whenRunning_of_not_stopped hs]
      rcases s.transport with _ | _ | n
      · exact ⟨p, hQs _ _ q⟩
      · exact ⟨p, by show Q (hang e s).display; rw [hang_display]; split_ifs; exact hQ _ _ q; exact q⟩
      · exact ⟨p, hQs _ _ q⟩
  have htxA : ∀ es (s : State), P s.fb → Q s.display → P (txAll es s).fb ∧ Q (txAll es s).display := by
    intro es; induction es with
    | nil => intro s p q; rw [txAll_nil]; exact ⟨p, q⟩
    | cons e es ih => intro s p q; rw [txAll_cons]; exact ih _ (htx e s p q).1 (htx e s p q).2
  have hplot : ∀ x y (s : State), P s.fb → Q s.display → P (plot x y s).fb ∧ Q (plot x y s).display := by
    intro x y s p q
    cases hs : s.stopped with
    | true => rw [plot_of_stopped x y hs]; exact ⟨p, q⟩
    | false =>
      by_cases hv : inX x ∧ inY y
      · obtain ⟨a, ha⟩ := translate_of_onDisplay hv
        rw [plot_of_translate hs ha]
        exact htxA _ _ (hP _ _ _ _ p) q
      · rw [plot_of_offDisplay hs hv]; exact ⟨p, q⟩
  have hplots : ∀ ps (s : State), P s.fb → Q s.display → P (plotAll ps s).fb ∧ Q (plotAll ps s).display := by
    intro ps; induction ps with
    | nil => intro s p q; exact ⟨p, q⟩
    | cons e es ih => intro s p q; exact ih _ (hplot e.1 e.2 s p q).1 (hplot e.1 e.2 s p q).2
  have hcc : ∀ b (s : State) x, P s.fb → Q s.display → P (clearCell b s x).fb ∧ Q (clearCell b s x).display := by
    intro b s x p q
    unfold clearCell
    apply htx
    · unfold whenRunning; split; exact p; exact hP _ _ _ _ p
    · unfold whenRunning; split <;> exact q
  have hcb : ∀ b (xs : List Column) (s : State), P s.fb → Q s.display → P (xs.foldl (clearCell b) s).fb ∧ Q (xs.foldl (clearCell b) s).display := by
    intro b xs; induction xs with
    | nil => intro s p q; exact ⟨p, q⟩
    | cons x xs ih => intro s p q; exact ih _ (hcc b s x p q).1 (hcc b s x p q).2
  have hbody : ∀ (bs : List Bank) (s : State), P s.fb → Q s.display → P (bs.foldl clearBank s).fb ∧ Q (bs.foldl clearBank s).display := by
    intro bs; induction bs with
    | nil => intro s p q; exact ⟨p, q⟩
    | cons b bs ih =>
      intro s p q
      have h1 := htx (cmd (colCmd 0)) s p q
      have h2 := htx (cmd (bankCmd b)) _ h1.1 h1.2
      have h3 := hcb b (List.finRange 84) _ h2.1 h2.2
      rw [List.foldl_cons]
      exact ih _ h3.1 h3.2
  by_cases hi : clearsDisplay i
  · rcases hi with rfl | rfl
    · simp only [exec, execClear, Host.Outcome.next.injEq] at h
      rw [← h, respond_fb, respond_display]; exact hbody (List.finRange 6) s p q
    · simp only [exec, execInit, Host.Outcome.next.injEq] at h
      rw [← h, respond_fb, respond_display]
      have h1 : P (powerSeq s).fb ∧ Q (powerSeq s).display := by
        unfold powerSeq whenRunning; split; exact ⟨p, q⟩; exact ⟨p, hQu _ q⟩
      have h2 : P (configure (powerSeq s)).fb ∧ Q (configure (powerSeq s)).display := by
        have := htxA (Config.initSeq.map cmd) _ h1.1 h1.2
        unfold configure whenRunning; split; exact this; exact ⟨this.1, hQc _ this.2⟩
      exact hbody (List.finRange 6) _ h2.1 h2.2
  · rw [exec_draw hi] at h; injection h with h
    rw [← h, respond_fb, respond_display]; exact hplots _ _ p q

/-! ## A step -/

/-- Everything a step that answers a next state can have done. -/
theorem step_cases {s t : State} (h : step s = .next t) :
    (∃ plan rest, s.inputs = .reset plan :: rest ∧ t = restart plan { s with inputs := rest }) ∨
    (s.fault = false ∧ t = s ∧ (s.busy = true ∨ s.inputs = [])) ∨
    (∃ rest, s.inputs = .bringUpDisplay :: rest ∧ s.fault = false ∧ s.busy = false ∧ t = bringUp { s with inputs := rest }) ∨
    (∃ w rest, s.inputs = .command w :: rest ∧ s.fault = false ∧ s.busy = false ∧
      ((∃ why, decode w = .reserved why ∧ t = reject (accept w { s with inputs := rest })) ∨
        ∃ i, decode w = .command i ∧ exec i (accept w { s with inputs := rest }) = .next t)) := by
  unfold step takeInput at h
  cases hin : s.inputs with
  | nil =>
    simp only [hin] at h
    cases hf : s.fault <;> simp only [hf, if_true, if_false, reduceCtorEq, Bool.false_eq_true, Host.Outcome.next.injEq] at h
    exact .inr (.inl ⟨rfl, h.symm, .inr rfl⟩)
  | cons c rest =>
    cases c with
    | reset plan =>
      simp only [hin, Host.Outcome.next.injEq] at h
      exact .inl ⟨plan, rest, rfl, h.symm⟩
    | bringUpDisplay =>
      simp only [hin] at h
      cases hf : s.fault <;> simp only [hf, if_true, if_false, reduceCtorEq, Bool.false_eq_true] at h
      cases hb : s.busy <;> simp only [hb, if_true, if_false, Bool.false_eq_true, Host.Outcome.next.injEq] at h
      · exact .inr (.inr (.inl ⟨rest, rfl, rfl, rfl, h.symm⟩))
      · exact .inr (.inl ⟨rfl, h.symm, .inl rfl⟩)
    | command w =>
      simp only [hin] at h
      cases hf : s.fault <;> simp only [hf, if_true, if_false, reduceCtorEq, Bool.false_eq_true] at h
      cases hb : s.busy <;> simp only [hb, if_true, if_false, Bool.false_eq_true, Host.Outcome.next.injEq] at h
      · refine .inr (.inr (.inr ⟨w, rest, rfl, rfl, rfl, ?_⟩))
        unfold receive at h
        cases hd : decode w with
        | command i => simp only [hd] at h; exact .inr ⟨i, rfl, h⟩
        | reserved why =>
          simp only [hd, Host.Outcome.next.injEq] at h
          exact .inl ⟨why, rfl, h.symm⟩
      · exact .inr (.inl ⟨rfl, h.symm, .inl rfl⟩)

end Sys2Proof.Machine
end

