-- ==== Sys2Proof/Laws/PerInstr.lean ====
section
/-! SUPPORT. Statements for every command, one lemma per constructor of `Instr`: the word of a command lies in its row of the
opcode table (30_encoding R74). -/

namespace Sys2Proof.Laws.OpcodeRow

/-- The opcode a row's word begins with (R74). -/
def opcode : Instr → Byte
  | .setPixel _ _ => 0x01#8
  | .axisLine _ _ _ => 0x02#8
  | .line _ _ _ _ => 0x03#8
  | .clear => 0x04#8
  | .init => 0x05#8

/-- The fixed bits of a row: the opcode and the fields that must be zero (R74, R76). -/
def mask : Instr → CommandWord
  | .setPixel _ _ => ofFields ⟨0xFF#8, 0x0000#16, 0x0000#16, 0xFFFF#16, 0xFFFF#16⟩
  | .axisLine _ _ _ => ofFields ⟨0xFF#8, 0x0000#16, 0x0000#16, 0x0000#16, 0xFFFF#16⟩
  | .line _ _ _ _ => ofFields ⟨0xFF#8, 0x0000#16, 0x0000#16, 0x0000#16, 0x0000#16⟩
  | .clear => ofFields ⟨0xFF#8, 0xFFFF#16, 0xFFFF#16, 0xFFFF#16, 0xFFFF#16⟩
  | .init => ofFields ⟨0xFF#8, 0xFFFF#16, 0xFFFF#16, 0xFFFF#16, 0xFFFF#16⟩

/-- The command's word has its row's fixed bits. -/
def Statement (i : Instr) : Prop := encode i &&& mask i = ofFields ⟨opcode i, 0#16, 0#16, 0#16, 0#16⟩

theorem setPixel (x y : Int) : Statement (.setPixel x y) := by
  unfold Statement encode mask
  rw [and_eq_ofFields_iff]
  simp [encodeFields, opcode]

theorem axisLine (x y ori : Int) : Statement (.axisLine x y ori) := by
  unfold Statement encode mask
  rw [and_eq_ofFields_iff]
  simp [encodeFields, opcode]

theorem line (x0 y0 x1 y1 : Int) : Statement (.line x0 y0 x1 y1) := by
  unfold Statement encode mask
  rw [and_eq_ofFields_iff]
  simp [encodeFields, opcode]

theorem clear : Statement .clear := by unfold Statement; decide

theorem init : Statement .init := by unfold Statement; decide

end Sys2Proof.Laws.OpcodeRow
end

