-- ==== Sys2Proof/Tests/Slice0.lean ====
section
/-! SUPPORT. Tests: words and results written out from the spec (30_encoding R83; 95_test_vectors V1 … V113, P1, P7), and for
each statement with hypotheses a state and operands that meet all of them. -/

namespace Sys2Proof.Tests
open Sys2Proof Sys2Proof.Machine

/-! ## States to test in -/

/-- A display that obeys R61 and R62 with nothing written to its RAM and the pointer at a column and bank. -/
def displayAt (x : Column) (b : Bank) : Display :=
  { ram := { cells := [], era := 0 }, column := x, bank := b, ready := true, free := 0 }

/-- An idle engine whose framebuffer lists some cells, with a display that obeys R61 and R62. -/
def idleWith (cells : Memory) (plan : Transport) (inputs : List Input) : State :=
  { fb := { cells := cells, era := 0 }
    op := 0#8, p0 := 0#16, p1 := 0#16, p2 := 0#16, p3 := 0#16
    busy := false, fault := false, rsp := 0#17, responses := [], trace := [], outstanding := none
    transport := plan
    display := displayAt 0 0
    inputs := inputs, free := 0 }

/-- The same engine with a command just accepted. -/
def started (cells : Memory) (plan : Transport) : State := { idleWith cells plan [] with busy := true }

/-- What is read of the next state of an outcome. -/
def seen {α : Type} (f : State → α) : Host.Outcome State Fault Refusal → Option α
  | .next t => some (f t)
  | .fault _ => none
  | .refused _ => none

/-- Listed cells, response, `BUSY`, `FAULT`, length of the trace. -/
def summary (t : State) : Memory × ResponseWord × Bool × Bool × Nat := (t.fb.cells, t.rsp, t.busy, t.fault, t.trace.length)

/-! ## WellFormed: one ill-formed term for each check (R72, R89) -/

theorem test_wellFormed_setPixel :
    Instr.wellFormed (.setPixel 32767 (-32768)) = true ∧ Instr.wellFormed (.setPixel 32768 0) = false ∧
      Instr.wellFormed (.setPixel 0 (-32769)) = false := by decide

theorem test_wellFormed_axisLine :
    Instr.wellFormed (.axisLine 32767 (-32768) (-1)) = true ∧ Instr.wellFormed (.axisLine (-32769) 0 0) = false ∧
      Instr.wellFormed (.axisLine 0 32768 0) = false ∧ Instr.wellFormed (.axisLine 0 0 32768) = false := by decide

theorem test_wellFormed_line :
    Instr.wellFormed (.line 32767 (-32768) 0 (-1)) = true ∧ Instr.wellFormed (.line 32768 0 0 0) = false ∧
      Instr.wellFormed (.line 0 (-32769) 0 0) = false ∧ Instr.wellFormed (.line 0 0 32768 0) = false ∧
      Instr.wellFormed (.line 0 0 0 (-32769)) = false := by decide

/-! ## Decoding, words written out bit by bit (R71, R74) -/

/-- SETPIXEL 5 −2: `OP` 01, `P0` 0005, `P1` FFFE, `P2` and `P3` zero. -/
theorem test_decode_setPixel_bits :
    decode 0b000000010000000000000101111111111111111000000000000000000000000000000000#72 = .command (.setPixel 5 (-2)) := by
  decide

/-- AXISLINE 5 5 1: `OP` 02, `P0` 0005, `P1` 0005, `P2` 0001, `P3` zero. -/
theorem test_decode_axisLine_bits :
    decode 0b000000100000000000000101000000000000010100000000000000010000000000000000#72 = .command (.axisLine 5 5 1) := by
  decide

/-- LINE 1 2 3 −4: `OP` 03, `P0` 0001, `P1` 0002, `P2` 0003, `P3` FFFC. -/
theorem test_decode_line_bits :
    decode 0b000000110000000000000001000000000000001000000000000000111111111111111100#72 = .command (.line 1 2 3 (-4)) := by
  decide

/-- CLEAR, `OP` 04 and INIT, `OP` 05, all fields zero. -/
theorem test_decode_clear_init_bits :
    decode 0b000001000000000000000000000000000000000000000000000000000000000000000000#72 = .command .clear ∧
      decode 0b000001010000000000000000000000000000000000000000000000000000000000000000#72 = .command .init := by decide

/-- V85 to V94: reserved words. -/
theorem test_decode_reserved :
    decode 0x000000000000000000#72 = .reserved (.opcode 0#8) ∧ decode 0xFFFFFFFFFFFFFFFFFF#72 = .reserved (.opcode 255#8) ∧
      decode 0x010005000500000001#72 = .reserved (.mustBeZero 1#8) ∧
      decode 0x020005000500000001#72 = .reserved (.mustBeZero 2#8) ∧
      decode 0x040000000000000001#72 = .reserved (.mustBeZero 4#8) ∧
      decode 0x050001000000000000#72 = .reserved (.mustBeZero 5#8) := by decide

/-- V98, V99: every word with `OP = 03` is a LINE, and any `P2` is legal for AXISLINE. -/
theorem test_decode_any_operand :
    decode 0x03FFFFFFFFFFFFFFFF#72 = .command (.line (-1) (-1) (-1) (-1)) ∧
      decode 0x0200000000FFFF0000#72 = .command (.axisLine 0 0 (-1)) := by decide

/-- The words the host lays out: the row's number is the command word (log 21). -/
theorem test_decodeTableWord :
    decodeTableWord 72 0x010005000500000000 = some (.setPixel 5 5) ∧ decodeTableWord 72 0x060000000000000000 = none := by decide

/-! ## Commands, results from the vectors -/

/-- V17: `FB[5][0] = 81`, SETPIXEL 5 5 gives `A1`; the cell has key 30. -/
theorem test_setPixel_merges :
    seen summary (exec (.setPixel 5 5) (started [(30, 0x81#8)] .live)) =
      some ([(30, 0xA1#8)], 0x00000#17, false, false, 3) := by decide

/-- V4: SETPIXEL 83 47 sends column 83, bank 5, and `80`. -/
theorem test_setPixel_triplet :
    seen State.trace (exec (.setPixel 83 47) (started [(503, 0#8)] .live)) =
      some [⟨colCmd 83, false⟩, ⟨bankCmd 5, false⟩, ⟨0x80#8, true⟩] := by rfl

/-- V10, V16: failures of SETPIXEL have code 1 and no effect. -/
theorem test_setPixel_fails :
    seen summary (exec (.setPixel 0 (-1)) (started [] .live)) = some ([], 0x00001#17, false, false, 0) ∧
      seen summary (exec (.setPixel 84 48) (started [] .live)) = some ([], 0x00001#17, false, false, 0) := by
  constructor <;> decide

/-- V24: AXISLINE 80 46 0 sets `40` in columns 80 to 83 of bank 5, with 12 writes. -/
theorem test_axisLine_horizontal :
    seen summary (exec (.axisLine 80 46 0) (started [(485, 0#8), (491, 0#8), (497, 0#8), (503, 0#8)] .live)) =
      some ([(485, 0x40#8), (491, 0x40#8), (497, 0x40#8), (503, 0x40#8)], 0x00000#17, false, false, 12) := by decide

/-- V27: AXISLINE 0 45 1 sends `20 60 E0`. -/
theorem test_axisLine_vertical :
    seen State.trace (exec (.axisLine 0 45 1) (started [(5, 0#8)] .live)) =
      some [⟨colCmd 0, false⟩, ⟨bankCmd 5, false⟩, ⟨0x20#8, true⟩, ⟨colCmd 0, false⟩, ⟨bankCmd 5, false⟩, ⟨0x60#8, true⟩,
        ⟨colCmd 0, false⟩, ⟨bankCmd 5, false⟩, ⟨0xE0#8, true⟩] := by rfl

/-- V45, V46: the passes of LINE 2 1 9 4 (low, `step` +1), also with its endpoints exchanged. -/
theorem test_line_low :
    linePasses 2 1 9 4 = [⟨2, 1, -1⟩, ⟨3, 1, 5⟩, ⟨4, 2, -3⟩, ⟨5, 2, 3⟩, ⟨6, 3, -5⟩, ⟨7, 3, 1⟩, ⟨8, 4, -7⟩, ⟨9, 4, -1⟩] ∧
      linePasses 9 4 2 1 = linePasses 2 1 9 4 := by decide

/-- V49: the passes of LINE 3 40 1 47 (high, `step` −1). -/
theorem test_line_high :
    linePasses 3 40 1 47 =
      [⟨3, 40, -3⟩, ⟨3, 41, 1⟩, ⟨2, 42, -9⟩, ⟨2, 43, -5⟩, ⟨2, 44, -1⟩, ⟨2, 45, 3⟩, ⟨1, 46, -7⟩, ⟨1, 47, -3⟩] := by decide

/-- P7: LINE 0 0 5 5 with a transport that completes 7 writes; key 6 is `FB[1][0]`, key 12 is `FB[2][0]`. -/
theorem test_line_hangs :
    seen summary (exec (.line 0 0 5 5) (started [(0, 0#8), (6, 0#8), (12, 0#8)] (.hangsAfter 7))) =
      some ([(0, 0x01#8), (6, 0x02#8), (12, 0x04#8)], 0x00000#17, true, false, 7) := by decide

/-- P7: the write that is never completed is the bank command of the third pixel. -/
theorem test_line_stuck :
    seen State.outstanding (exec (.line 0 0 5 5) (started [(0, 0#8), (6, 0#8), (12, 0#8)] (.hangsAfter 7))) =
      some (some ⟨bankCmd 0, false⟩) := by rfl

/-- CLEAR's writes begin with column 0, bank 0 and a zero byte (V81). -/
theorem test_clear_first_writes : (clearBankWrites 0).take 3 = [⟨colCmd 0, false⟩, ⟨bankCmd 0, false⟩, ⟨0#8, true⟩] := by rfl

/-- CLEAR updates a cell before its byte is sent: stopped at that byte, the cell is zero already (R140, D19). -/
theorem test_clearCell_hangs :
    summary (clearCell 0 (started [(0, 0xFF#8), (6, 0xFF#8)] (.hangsAfter 0)) 0) =
      ([(0, 0x00#8), (6, 0xFF#8)], 0x00000#17, true, false, 0) := by decide

/-- V84: INIT sends its configuration bytes as command writes, then CLEAR's 516 writes, and answers 0. -/
theorem test_init_trace :
    seen (fun t => (t.trace, t.rsp)) (exec .init (started [] .live)) = some (Config.initSeq.map cmd ++ clearWrites, 0#17) := by
  rw [exec_init_done (s := started [] .live) rfl trivial, respond_of_not_stopped _ rfl]
  rfl

/-- V94 and V86 in a step: rejected words answer `1 0000` and change nothing else. -/
theorem test_step_rejects :
    seen summary (step (idleWith [(0, 0xAA#8)] .live [.command 0x010054000000010000#72])) =
        some ([(0, 0xAA#8)], 0x10000#17, false, false, 0) ∧
      seen summary (step (idleWith [(0, 0xAA#8)] .live [.command 0x060000000000000000#72])) =
        some ([(0, 0xAA#8)], 0x10000#17, false, false, 0) := by
  constructor <;> decide

/-- A step from reset with a word placed runs it (V97: AXISLINE 5 5 2 fails with −1). -/
theorem test_step_fetches :
    seen (fun t => (t.rsp, t.busy, t.inputs)) (step (State.reset.withFetchWord 72 0x020005000500020000)) =
      some (0x0FFFF#17, false, []) := by decide

/-- The display takes an address and a byte: the byte is stored there and the pointer moves on by one column (R61, R62). -/
theorem test_display_take :
    ((displayAt 0 3).take (cmd (colCmd 7))).take (dat 0x5A#8) =
      { displayAt 8 3 with ram := { cells := [(45, 0x5A#8)], era := 0 } } := by
  rw [take_colCmd rfl]
  decide

/-! ## The assembler -/

/-- V100 to V105. -/
theorem test_assembles :
    assemble "SETPIXEL 5 5".toList = some 0x010005000500000000#72 ∧
      assemble "SETPIXEL,5,5".toList = some 0x010005000500000000#72 ∧
      assemble "LINE 2, 1,\t9 ,4".toList = some 0x030002000100090004#72 ∧
      assemble "AXISLINE 5 5 1".toList = some 0x020005000500010000#72 ∧
      assemble "SETPIXEL -1 0".toList = some 0x01FFFF000000000000#72 ∧
      assemble "CLEAR".toList = some 0x040000000000000000#72 := by decide

/-- V106 to V113. -/
theorem test_does_not_assemble :
    assemble "SETPIXEL 5".toList = none ∧ assemble "SETPIXEL 5 5 5".toList = none ∧ assemble "CLEAR 0".toList = none ∧
      assemble "setpixel 5 5".toList = none ∧ assemble "PIXEL 5 5".toList = none ∧ assemble "SETPIXEL 5 a".toList = none ∧
      assemble "SETPIXEL 40000 0".toList = none ∧ assemble "AXISLINE 5 5 H".toList = none := by decide

/-! ## Hypotheses that can be met: a state and operands for each statement that has any -/

theorem test_meets_idle : (idleWith [] .live []).idle := ⟨rfl, rfl, rfl⟩

theorem test_meets_running : (started [] .live).running := ⟨rfl, rfl, rfl⟩

/-- The fields of a word, as DecodeFollowsPseudocode names them. -/
def cut (w : CommandWord) : Byte × Field × Field × Field × Field :=
  (w.extractLsb' 64 8, w.extractLsb' 48 16, w.extractLsb' 32 16, w.extractLsb' 16 16, w.extractLsb' 0 16)

/-- DecodeFollowsPseudocode, one for each clause, with fields at the ends of their range. -/
theorem test_meets_decodeClauses :
    cut 0x017FFF800000000000#72 = (1#8, 0x7FFF#16, 0x8000#16, 0#16, 0#16) ∧
      cut 0x0280007FFFFFFF0000#72 = (2#8, 0x8000#16, 0x7FFF#16, 0xFFFF#16, 0#16) ∧
      cut 0x0380007FFF00008000#72 = (3#8, 0x8000#16, 0x7FFF#16, 0#16, 0x8000#16) ∧
      cut 0x040000000000000000#72 = (4#8, 0#16, 0#16, 0#16, 0#16) ∧
      cut 0x050000000000000000#72 = (5#8, 0#16, 0#16, 0#16, 0#16) ∧
      cut 0x040000000000000001#72 = (4#8, 0#16, 0#16, 0#16, 1#16) ∧
      cut 0x017FFF800000000001#72 = (1#8, 0x7FFF#16, 0x8000#16, 0#16, 1#16) := by
  and_intros <;> decide

/-- DecodeInvertsEncode and EncodeInvertsDecode. -/
theorem test_meets_decodeEncode :
    (Instr.line (-32768) 32767 0 (-1)).wellFormed = true ∧
      decode 0x0380007FFF0000FFFF#72 = .command (.line (-32768) 32767 0 (-1)) := by decide

/-- StepRunsDecodedCommand, StepRunsFetchWord. -/
theorem test_meets_stepRuns :
    (idleWith [] .live [.command 0x040000000000000000#72]).idle ∧ decode 0x040000000000000000#72 = .command .clear ∧
      decodeTableWord 72 0x040000000000000000 = some .clear := ⟨⟨rfl, rfl, rfl⟩, by decide, by decide⟩

/-- ReservedWordIsRejected. -/
theorem test_meets_reserved :
    (idleWith [] .live [.command 0x060000000000000000#72]).idle ∧ ∀ i, decode 0x060000000000000000#72 ≠ .command i := by
  refine ⟨⟨rfl, rfl, rfl⟩, fun i h => ?_⟩
  have h' : decode 0x060000000000000000#72 = .reserved (.opcode 6#8) := by decide
  rw [h'] at h
  cases h

/-- DecodePrecedesValidation, both opcodes and both fields (V94, V89, V90, V91). -/
theorem test_meets_decodePrecedes :
    (0x010054000000010000#72 : CommandWord).extractLsb' 64 8 = 1#8 ∧
      (0x010054000000010000#72 : CommandWord).extractLsb' 16 16 ≠ 0#16 ∧
      (0x010005000500000001#72 : CommandWord).extractLsb' 0 16 ≠ 0#16 ∧
      (0x020005000500000001#72 : CommandWord).extractLsb' 64 8 = 2#8 ∧
      (0x020005000500000001#72 : CommandWord).extractLsb' 0 16 ≠ 0#16 := by decide

/-- BusyPortTakesNoWord. -/
theorem test_meets_busy :
    let s := { started [] (.hangsAfter 0) with outstanding := some (dat 0#8), inputs := [.command 0x040000000000000000#72] }
    s.busy = true ∧ s.fault = false ∧ s.inputs = .command 0x040000000000000000#72 :: [] := ⟨rfl, rfl, rfl⟩

/-- IdleEngineWaits; HaltedUntilReset, both clauses; ResetTakenInEveryCondition; BringUpTouchesDisplayOnly. -/
theorem test_meets_inputs :
    ((idleWith [] .live []).fault = false ∧ (idleWith [] .live []).inputs = []) ∧
    ({ started [] .live with fault := true }.fault = true ∧
      ∀ plan rest, { started [] .live with fault := true }.inputs ≠ .reset plan :: rest) ∧
    ({ started [] .live with fault := true, inputs := [.reset .live] }.fault = true ∧
      { started [] .live with fault := true, inputs := [.reset .live] }.inputs = .reset .live :: []) ∧
    ((idleWith [] .live [.bringUpDisplay]).idle ∧ (idleWith [] .live [.bringUpDisplay]).inputs = .bringUpDisplay :: []) :=
  ⟨⟨rfl, rfl⟩, ⟨rfl, fun _ _ h => by cases h⟩, ⟨rfl, rfl⟩, ⟨⟨rfl, rfl, rfl⟩, rfl⟩⟩

/-- TranslatorFollowsDivision, PixelsAndBitsCorrespond and FbSetWritesOneCell, at the corners and just past them (S10). -/
theorem test_meets_translate :
    Machine.translate 0 0 = some ⟨0, 0, 0⟩ ∧ Machine.translate 83 47 = some ⟨83, 5, 7⟩ ∧ Machine.translate 41 23 = some ⟨41, 2, 7⟩ ∧
      Machine.translate 0 8 = some ⟨0, 1, 0⟩ ∧ ¬ (inX 84 ∧ inY 0) ∧ ¬ (inX 0 ∧ inY 48) ∧ ¬ (inX (-1) ∧ inY 0) ∧ ¬ (inX 0 ∧ inY (-1)) := by
  decide

/-- SetPixelSetsAndSends and SetPixelChangesOnePixel (its second clause too), with a transport that completes exactly the three writes. -/
theorem test_meets_setPixel :
    (started [] (.hangsAfter 3)).running ∧ Machine.translate 83 47 = some ⟨83, 5, 7⟩ ∧ inX 83 ∧ inY 47 ∧
      (started [] (.hangsAfter 3)).transport.allows 3 ∧ ¬ (inX 84 ∧ inY 47) ∧ ¬ (inX 83 ∧ inY 48) :=
  ⟨⟨rfl, rfl, rfl⟩, by decide, by decide, by decide, Nat.le_refl 3, by decide, by decide⟩

/-- SetPixelAgainResends. -/
theorem test_meets_setPixelAgain :
    let s := started [(0, 0x81#8)] (.hangsAfter 3)
    s.running ∧ Machine.translate 0 7 = some ⟨0, 0, 7⟩ ∧ s.pixel 0 7 = true ∧ s.transport.allows 3 :=
  ⟨⟨rfl, rfl, rfl⟩, by decide, by decide, Nat.le_refl 3⟩

/-- FailingCommandsHaveNoEffect, each clause just outside the range (V7, V31, V32, V71). -/
theorem test_meets_failing :
    (started [] (.hangsAfter 0)).running ∧ ¬ (inX 84 ∧ inY 0) ∧
      ¬ (inX 5 ∧ inY 5 ∧ ((2 : Int) = 0 ∨ (2 : Int) = 1)) ∧ ¬ (inX 5 ∧ inY 5 ∧ ((-1 : Int) = 0 ∨ (-1 : Int) = 1)) ∧
      ¬ (inX 0 ∧ inY 0 ∧ inX 84 ∧ inY 0) := ⟨⟨rfl, rfl, rfl⟩, by decide, by decide, by decide, by decide⟩

/-- HorizontalRayReachesRightEdge and VerticalRayReachesBottomEdge, at the far corner, with its clauses on columns and
rows. -/
theorem test_meets_rays :
    (started [] (.hangsAfter 3)).running ∧ inX 83 ∧ inY 47 ∧ (started [] (.hangsAfter 3)).transport.allows (3 * (84 - 83)) ∧
      (started [] (.hangsAfter 3)).transport.allows (3 * (48 - 47)) ∧
      (83 : Int) ≤ ((83 : Column).val : Int) ∧ ((5 : Bank).val : Int) = 47 / 8 ∧ ((82 : Column).val : Int) < 83 ∧
      ((4 : Bank).val : Int) < 47 / 8 :=
  ⟨⟨rfl, rfl, rfl⟩, by decide, by decide, Nat.le_refl 3, Nat.le_refl 3, by decide, by decide, by decide, by decide⟩

/-- LineDrawsItsPoints, LinePointCount and ErrorTermRange: the longest line (R128) with its 252 writes. -/
theorem test_meets_line :
    (started [] (.hangsAfter 252)).running ∧ inX 0 ∧ inY 0 ∧ inX 83 ∧ inY 47 ∧
      (started [] (.hangsAfter 252)).transport.allows (3 * (max ((83 - 0 : Int)).natAbs ((47 - 0 : Int)).natAbs + 1)) ∧
      (⟨0, 0, 11⟩ : Pass) ∈ linePasses 0 0 83 47 :=
  ⟨⟨rfl, rfl, rfl⟩, by decide, by decide, by decide, by decide, Nat.le_refl 252, by decide⟩

/-- LineIsMonotoneChain in both regimes; LinePointsStayInBox. -/
theorem test_meets_chain :
    ((linePasses 2 1 9 4)[6]? = some ⟨8, 4, -7⟩ ∧ (linePasses 2 1 9 4)[7]? = some ⟨9, 4, -1⟩) ∧
      ((linePasses 3 40 1 47)[1]? = some ⟨3, 41, 1⟩ ∧ (linePasses 3 40 1 47)[2]? = some ⟨2, 42, -9⟩) ∧
      (⟨9, 4, -1⟩ : Pass) ∈ linePasses 2 1 9 4 := by decide

/-- LinePointsStayInBox, its second clause. -/
theorem test_meets_lineNoFault :
    ∃ t, (started [] .live).fault = false ∧ exec (.line 0 0 83 47) (started [] .live) = .next t := by
  obtain ⟨t, h⟩ := exec_next (.line 0 0 83 47) (started [] .live)
  exact ⟨t, rfl, h⟩

/-- RasterizersClosedForm, first and last iteration of each rasterizer (42_line R124, R126: the error terms of the examples). -/
theorem test_meets_closedForm :
    ((0 : Int) < 4 ∧ ((1 - 0 : Int)).natAbs < ((4 - 0 : Int)).natAbs ∧ ((4 : Nat) : Int) ≤ 4 - 0 ∧
      (low 0 0 4 1)[4]? = some ⟨4, 1, -2⟩) ∧
    ((40 : Int) < 47 ∧ ((1 - 3 : Int)).natAbs ≤ ((47 - 40 : Int)).natAbs ∧ ((7 : Nat) : Int) ≤ 47 - 40 ∧
      (high 3 40 1 47)[7]? = some ⟨1, 47, -3⟩) ∧
    ((0 : Int) < 4 ∧ (0 : Int) ≤ 1 ∧ (1 : Int) ≤ 4 ∧ roundedStep 4 1 4 = 1) := by decide

/-- DegenerateLines, each clause. -/
theorem test_meets_degenerate :
    (0 : Int) ≠ 83 ∧ (47 : Int) ≠ 0 ∧ (0 : Int) ≤ 0 ∧ passPoints (linePasses 3 2 1 2) = [(1, 2), (2, 2), (3, 2)] ∧
      passPoints (linePasses 1 0 3 2) = [(1, 0), (2, 1), (3, 2)] := by decide

/-- ClearZeroesAndSends, ClearSynchronizesDisplay: exactly the 516 writes. -/
theorem test_meets_clear :
    (started [] (.hangsAfter 516)).running ∧ (started [] (.hangsAfter 516)).transport.allows 516 ∧
      (started [] (.hangsAfter 516)).display.ready = true := ⟨⟨rfl, rfl, rfl⟩, Nat.le_refl 516, rfl⟩

/-- ClearTwice, on a display that obeys R61 and R62. -/
theorem test_meets_clearTwice :
    ∃ t u, (started [] .live).running ∧ (started [] .live).transport = .live ∧ (started [] .live).display.ready = true ∧
      exec .clear (started [] .live) = .next t ∧ exec .clear (accept 0x040000000000000000#72 t) = .next u :=
  ⟨_, _, ⟨rfl, rfl, rfl⟩, rfl, rfl, rfl, rfl⟩

/-- InitConfiguresAndClears, InitSynchronizesDisplay: exactly as many writes as INIT makes. -/
theorem test_meets_init :
    let s := started [] (.hangsAfter (Config.initSeq.length + 516))
    s.running ∧ s.transport.allows (Config.initSeq.length + 516) := ⟨⟨rfl, rfl, rfl⟩, Nat.le_refl _⟩

/-- SmallStepMatchesBigStep, with exactly the writes of the command. -/
theorem test_meets_bigStep :
    let s := started [(0, 0#8)] (.hangsAfter 3)
    s.running ∧ s.transport.allows (bigStep (.setPixel 0 0) s.fb).writes.length := ⟨⟨rfl, rfl, rfl⟩, by
      show (bigStep (.setPixel 0 0) { cells := [(0, 0#8)], era := 0 }).writes.length ≤ 3
      decide⟩

/-- HungTransportBlocks and HungDrawingKeepsUpdates, stopped before the first write and before the last; the first clause of
CommandEndsIffWritesComplete. -/
theorem test_meets_hung :
    let s := started [(0, 0#8)] (.hangsAfter 0)
    let u := started [(0, 0#8)] (.hangsAfter 2)
    (s.running ∧ s.transport = .hangsAfter 0 ∧ 0 < (bigStep (.setPixel 0 0) s.fb).writes.length) ∧
      (u.running ∧ u.transport = .hangsAfter 2 ∧ 2 < (bigStep (.setPixel 0 0) u.fb).writes.length) ∧
      ¬ clearsDisplay (.setPixel 0 0) ∧ 2 < 3 * (pointsOf (.setPixel 0 0)).length ∧
      ∃ t, exec (.setPixel 0 0) s = .next t :=
  ⟨⟨⟨rfl, rfl, rfl⟩, rfl, by decide⟩, ⟨⟨rfl, rfl, rfl⟩, rfl, by decide⟩, by simp [clearsDisplay], by decide, exec_next _ _⟩

/-- HungClearKeepsUpdates: CLEAR stopped before its first write and before its last, in each clause on cells (at 515 banks 0 to
4 are swept, and bank 5 is zero up to column 83; at 0 every cell is as before), and INIT stopped before its last write and
before the first of all. -/
theorem test_meets_hungClear :
    let n := Config.initSeq.length + 515
    (∀ n, (started [] (.hangsAfter n)).running ∧ (started [] (.hangsAfter n)).display.ready = true) ∧
      ((4 : Bank).val < 515 / 86 ∧ (5 : Bank).val = 515 / 86 ∧ (83 : Column).val + 2 ≤ 515 % 86) ∧
      ((0 : Bank).val = 0 / 86 ∧ 0 % 86 < (0 : Column).val + 2 ∧ 0 / 86 < (1 : Bank).val) ∧ 515 < 516 ∧
      (n < Config.initSeq.length + 516 ∧ n - Config.initSeq.length = 515) ∧
      (0 < Config.initSeq.length + 516 ∧ 0 - Config.initSeq.length = 0) :=
  ⟨fun _ => ⟨⟨rfl, rfl, rfl⟩, rfl⟩, by decide, by decide, by decide, by omega, by omega⟩

/-- CommandEndsIffWritesComplete, its second clause. -/
theorem test_meets_blocked :
    let s := { started [] (.hangsAfter 0) with outstanding := some (dat 0#8) }
    s.busy = true ∧ s.fault = false ∧ s.outstanding ≠ none ∧ ∀ plan rest, s.inputs ≠ .reset plan :: rest :=
  ⟨rfl, rfl, by simp, fun _ _ h => by cases h⟩

/-- PixelsOnlyAccumulate, its first clause; CommandsFrame, its last clause on a halted and on a blocked engine. -/
theorem test_meets_accumulate :
    ¬ clearsDisplay (.setPixel 84 0) ∧ (∃ t, exec (.setPixel 84 0) (started [(0, 1#8)] .live) = .next t) ∧
      (started [(0, 1#8)] .live).pixel 0 0 = true ∧ { started [] .live with fault := true }.fault = true ∧
      { started [] .live with outstanding := some (dat 0#8) }.outstanding ≠ none :=
  ⟨by simp [clearsDisplay], exec_next _ _, by decide, rfl, by simp⟩

/-- PixelsOnlyAccumulate, its second clause. -/
theorem test_meets_drawTwice :
    ∃ t u, ¬ clearsDisplay (.setPixel 0 0) ∧ (started [] .live).running ∧ (started [] .live).transport = .live ∧
      exec (.setPixel 0 0) (started [] .live) = .next t ∧
      exec (.setPixel 0 0) (accept 0x010000000000000000#72 t) = .next u := by
  obtain ⟨t, ht⟩ := exec_next (.setPixel 0 0) (started [] .live)
  obtain ⟨u, hu⟩ := exec_next (.setPixel 0 0) (accept 0x010000000000000000#72 t)
  exact ⟨t, u, by simp [clearsDisplay], ⟨rfl, rfl, rfl⟩, rfl, ht, hu⟩

/-- InvariantFaultIsNeverRaised, each clause. -/
theorem test_meets_invariantFault :
    (started [] .live).running ∧ ¬ (inX 84 ∧ inY 0) ∧ inX 83 ∧ inY 47 ∧
      ∃ t, (idleWith [] .live [.command 0x040000000000000000#72]).fault = false ∧
        step (idleWith [] .live [.command 0x040000000000000000#72]) = .next t :=
  ⟨⟨rfl, rfl, rfl⟩, by decide, by decide, by decide, _, rfl, rfl⟩

/-- AddressCommandsMovePointer, DataWriteStoresAndAdvances, before the last column and at it. -/
theorem test_meets_display :
    (displayAt 82 5).ready = true ∧ (displayAt 82 5).column.val < 83 ∧ ¬ (displayAt 83 5).column.val < 83 := by decide

/-- DisplayNeverInfluencesEngine, MemoryStaysCanonical, ControlStaysConsistent: a step that runs CLEAR. -/
theorem test_meets_invariants :
    let s := idleWith [(0, 1#8), (503, 2#8)] .live [.command 0x040000000000000000#72]
    s.memoryCanonical ∧ s.controlConsistent ∧ ∃ t, step s = .next t := by
  refine ⟨⟨by decide, by decide⟩, ⟨fun h => ?_, fun h => ?_, fun h => absurd rfl h⟩, _, rfl⟩ <;> cases h

/-- An idle engine with a framebuffer and a display, and a next command. -/
def withDisplay (m : CellStore) (d : Display) : State :=
  { idleWith [] .live [.command 0x010005000500000000#72] with fb := m, display := d }

theorem test_mirrorInv_of_holds {m : CellStore} {d : Display} (h : holds d m) : (withDisplay m d).mirrorInv := fun _ => h

/-- MirrorIsKept: the state CLEAR leaves on a display that obeys R61 and R62, with a next command. -/
theorem test_meets_mirror :
    ∃ s t, s.busy = false ∧ s.hostKeepsDisplay ∧ s.mirrorInv ∧ step s = .next t := by
  obtain ⟨t, ht⟩ := exec_next (.setPixel 5 5) (accept 0x010005000500000000#72
    { withDisplay (clearBig ⟨[], 0⟩) (clearWrites.foldl Display.take (displayAt 0 0)) with inputs := [] })
  exact ⟨withDisplay (clearBig ⟨[], 0⟩) (clearWrites.foldl Display.take (displayAt 0 0)), t, rfl, .inr ⟨_, _, rfl⟩,
    test_mirrorInv_of_holds (holds_clear rfl _), ht⟩

/-- MirrorAfterFirstClear and PictureSinceLastClear: P1 with its failing command and a reserved word at the end. -/
theorem test_meets_runs :
    let ws : List CommandWord := [0x010000000000000000#72, 0x010000000700000000#72, 0x010054000000000000#72, 0x060000000000000000#72]
    let s := idleWith [] .live ((encode .clear :: ws).map Input.command)
    s.idle ∧ s.transport = .live ∧ s.display.ready = true ∧ clearsDisplay .clear ∧
      (∀ w ∈ ws, ∀ i, decode w = .command i → ¬ clearsDisplay i) ∧ 4 ≤ ws.length := by
  refine ⟨⟨rfl, rfl, rfl⟩, rfl, rfl, .inl rfl, fun w hw i hi => ?_, by decide⟩
  have h : decode w ≠ .command .clear ∧ decode w ≠ .command .init := by
    simp only [List.mem_cons, List.not_mem_nil, or_false] at hw
    rcases hw with rfl | rfl | rfl | rfl <;> decide
  rintro (rfl | rfl)
  · exact h.1 hi
  · exact h.2 hi

/-- AssembledLinesAreCommands, with the largest and the smallest argument. -/
theorem test_meets_assemble :
    assemble "LINE 32767 -32768 0 -1".toList = some 0x037FFF80000000FFFF#72 ∧
      arguments ["32767".toList, "-32768".toList] = some [32767, -32768] := by decide

/-- TokensAndArguments: delimiters, a token that ends at a delimiter and one that ends the line (V102), and arguments at both
ends of the range. -/
theorem test_meets_tokens :
    (∀ c ∈ [',', ' ', '\t'], c = ' ' ∨ c = '\t' ∨ c = ',') ∧ (∀ c ∈ ['-', '1'], c ≠ ' ' ∧ c ≠ '\t' ∧ c ≠ ',') ∧
      (∀ c ∈ ([',', '0'] : List Char).head?, c = ' ' ∨ c = '\t' ∨ c = ',') ∧
      (∀ c ∈ ([] : List Char).head?, c = ' ' ∨ c = '\t' ∨ c = ',') ∧
      [3, 2, 7, 6, 8].map decimalDigit = "32768".toList ∧ decimalValue [3, 2, 7, 6, 8] = 32768 ∧
      decimalValue [3, 2, 7, 6, 7] = 32767 := by
  refine ⟨by simp, by simp, by simp, by simp, rfl, rfl, rfl⟩

/-- The tokens of V102's line; arguments at the ends of the range and just past them. -/
theorem test_tokens :
    tokens "LINE 2, 1,\t9 ,4".toList = ["LINE".toList, ['2'], ['1'], ['9'], ['4']] ∧
      argument "32767".toList = some 32767 ∧ argument "-32768".toList = some (-32768) ∧ argument "32768".toList = none ∧
      argument "-32769".toList = none ∧ argument "-".toList = none := by decide

/-- RunResultOfAProgram: a program of a drawing, a failing and a reserved word, with exactly its three writes. -/
theorem test_meets_runResult :
    let ws : List CommandWord := [0x010000000000000000#72, 0x010054000000000000#72, 0x060000000000000000#72]
    let s := idleWith [(0, 0#8)] (.hangsAfter 3) (ws.map Input.command)
    s.idle ∧ s.inputs = ws.map Input.command ∧ s.transport.allows (programBig ws s.fb).trace.length := by
  refine ⟨⟨rfl, rfl, rfl⟩, rfl, ?_⟩
  show (programBig _ _).trace.length ≤ 3
  decide

/-- RunResultOfAProgram, its last clause: an engine that is not at an end, in each way. -/
theorem test_meets_notEnded :
    (started [] .live).busy = true ∧ { started [] .live with fault := true }.fault = true ∧
      { started [] .live with outstanding := some (dat 0#8) }.outstanding ≠ none ∧
      (idleWith [] .live [.command 0x040000000000000000#72]).inputs ≠ [] := ⟨rfl, rfl, by simp, by simp [idleWith]⟩

/-- The result of a program: SETPIXEL 0 0, a failure of SETPIXEL and a reserved word answer 0, 1 and REJECT (V7, V86). -/
theorem test_run_responses :
    seen (fun t => (t.runResult.map RunResult.responses))
        (Host.Core.run Sys2Proof.core 3 (idleWith [(0, 0#8)] .live ([0x010000000000000000#72, 0x010054000000000000#72,
          0x060000000000000000#72].map Input.command))) = some (some [0x00000#17, 0x00001#17, 0x10000#17]) := by decide

end Sys2Proof.Tests
end

/-! Proofs of the statements of 00_scope: the canonical stores, the big step, the frame of a command, and that the display
never influences the engine. -/

namespace Sys2Proof.Machine

/-! ## One equation per case of a step -/

section step
variable {s : State} {w : CommandWord} {rest : List Input}

theorem step_of_reset {plan : Transport} (hin : s.inputs = .reset plan :: rest) :
    step s = .next (restart plan { s with inputs := rest }) := by
  simp [step, takeInput, hin]

/-- A busy engine, and one with no input, stays as it is, unless it is halted or takes a reset (R27, R171, R175). -/
theorem step_of_waiting (hf : s.fault = false) (hr : ∀ plan rest, s.inputs ≠ .reset plan :: rest)
    (hw : s.busy = true ∨ s.inputs = []) : step s = .next s := by
  cases hin : s.inputs with
  | nil => simp [step, takeInput, hin, hf]
  | cons c rest =>
    have hb : s.busy = true := hw.resolve_right (by simp [hin])
    cases c with
    | reset plan => exact absurd hin (hr plan rest)
    | command w => simp [step, takeInput, hin, hf, hb]
    | bringUpDisplay => simp [step, takeInput, hin, hf, hb]

theorem step_of_bringUp (hin : s.inputs = .bringUpDisplay :: rest) (hf : s.fault = false) (hb : s.busy = false) :
    step s = .next (bringUp { s with inputs := rest }) := by
  simp [step, takeInput, hin, hf, hb]

theorem step_of_reserved {why : ReservedWord} (hin : s.inputs = .command w :: rest) (hf : s.fault = false)
    (hb : s.busy = false) (hd : decode w = .reserved why) :
    step s = .next (reject (accept w { s with inputs := rest })) := by
  simp [step, takeInput, receive, hin, hf, hb, hd]

theorem step_of_command {i : Instr} (hin : s.inputs = .command w :: rest) (hf : s.fault = false)
    (hb : s.busy = false) (hd : decode w = .command i) : step s = exec i (accept w { s with inputs := rest }) := by
  simp [step, takeInput, receive, hin, hf, hb, hd]

end step

/-! ## The stores stay canonical -/

/-- Commands reach the stores by cell writes and display events alone, each of which keeps the canonical form. -/
theorem exec_memoryCanonical {i : Instr} {s t : State} (h : exec i s = .next t) (hs : s.memoryCanonical) :
    t.memoryCanonical :=
  exec_preserves i s t h (fun m => Memory.wf m.cells) (fun d => Memory.wf d.ram.cells)
    (fun _ x b v hm => CellStore.wf_write x b v hm) (fun d e hd => take_wf d e hd)
    (fun _ _ => Memory.wf_nil) (fun _ hd => hd) hs.1 hs.2

/-- Settles O50, case by case over what a step can do. -/
theorem memoryStaysCanonical : Obligations.MemoryStaysCanonical := by
  intro s t hs h
  obtain ⟨hfb, hram⟩ := hs
  rcases step_cases h with ⟨plan, rest, -, rfl⟩ | ⟨-, rfl, -⟩ | ⟨rest, -, -, -, rfl⟩ |
    ⟨w, rest, -, -, -, ⟨why, -, rfl⟩ | ⟨i, -, hexec⟩⟩
  · exact ⟨Memory.wf_nil, hram⟩
  · exact ⟨hfb, hram⟩
  · exact ⟨hfb, Memory.wf_nil⟩
  · rw [State.memoryCanonical, reject, finish_fb, finish_display]
    exact ⟨hfb, hram⟩
  · exact exec_memoryCanonical hexec ⟨hfb, hram⟩

/-! ## Small step and big step -/

/-- Answering after all of a command's writes is the end of the command (R27, R80). -/
theorem ended_respond_doneState {s : State} (h : s.stopped = false) (c : Int) (m : CellStore) (ws : List Tx) :
    Ended c ws s (respond c (doneState m ws s)) where
  rsp := respond_rsp c h
  responses := respond_responses c h
  busy := by simp [respond_busy, h]
  fault := respond_fault c _
  outstanding := by simpa using ((stopped_eq_false_iff s).1 h).2
  trace := respond_trace c _
  transport := respond_transport c _
  inputs := respond_inputs c _

/-- An end counted from the configured engine is an end counted from before the configuration, whose writes come first
(R144). -/
theorem Ended.of_configuredState {c : Int} {ws : List Tx} {s t : State} (h : Ended c ws (configuredState s) t) :
    Ended c (configWrites ++ ws) s t where
  rsp := h.rsp
  responses := h.responses
  busy := h.busy
  fault := h.fault
  outstanding := h.outstanding
  trace := by rw [h.trace, configuredState_trace, List.append_assoc]
  transport := by rw [h.transport, configuredState_transport, Transport.after_after, List.length_append]
  inputs := h.inputs

/-- Settles O40: CLEAR, INIT and the drawing commands, each completed by the transport. -/
theorem smallStepMatchesBigStep : Obligations.SmallStepMatchesBigStep := by
  intro i s hrun hallow
  have hs := hrun.stopped
  by_cases hi : clearsDisplay i
  · rcases hi with rfl | rfl
    · rw [bigStep_clear] at hallow ⊢
      exact ⟨_, exec_clear_done hs hallow, respond_fb _ _, ended_respond_doneState hs _ _ _⟩
    · rw [bigStep_init] at hallow ⊢
      exact ⟨_, exec_init_done hs hallow, respond_fb _ _,
        (ended_respond_doneState (s := configuredState s) hs _ _ _).of_configuredState⟩
  · rw [bigStep_draw hi] at hallow ⊢
    exact ⟨_, exec_draw_done hi hs hallow, respond_fb _ _, ended_respond_doneState hs _ _ _⟩

/-! ## The frame of a command -/

/-- Settles O45: a stopped engine adds nothing, a finished command one response, a blocked one none. -/
theorem commandsFrame : Obligations.CommandsFrame := by
  intro i s t h
  obtain ⟨t', h', hstop, hinputs, htrace, -, hresp⟩ := exec_control i s
  obtain rfl : t = t' := Host.Outcome.next.inj (h.symm.trans h')
  refine ⟨hinputs, htrace, ?_, fun hst => hstop ((stopped_eq_true_iff s).2 hst)⟩
  cases hs : s.stopped with
  | true => exact ⟨[], by rw [hstop hs, List.append_nil]⟩
  | false =>
    rcases hresp hs with ⟨-, -, hended⟩ | ⟨-, -, -, hblocked⟩
    · exact ⟨[t.rsp], hended⟩
    · exact ⟨[], by rw [hblocked, List.append_nil]⟩

/-! ## The display and the engine -/

/-- The action does the same to everything but the display, whatever the display is (R5, R32). -/
def IgnoresDisplay (f : State → State) : Prop :=
  ∀ (s : State) (d : Display), ∃ d', f { s with display := d } = { f s with display := d' }

theorem IgnoresDisplay.comp {f g : State → State} (hf : IgnoresDisplay f) (hg : IgnoresDisplay g) :
    IgnoresDisplay (fun s => f (g s)) := fun s d => by
  obtain ⟨d₁, h₁⟩ := hg s d
  obtain ⟨d₂, h₂⟩ := hf (g s) d₁
  exact ⟨d₂, (congrArg f h₁).trans h₂⟩

theorem IgnoresDisplay.whenRunning {f : State → State} (hf : IgnoresDisplay f) : IgnoresDisplay (whenRunning f) := by
  intro s d
  cases hs : s.stopped with
  | true => exact ⟨d, by rw [whenRunning_of_stopped hs, whenRunning_of_stopped (s := { s with display := d }) hs]⟩
  | false =>
    obtain ⟨d', h⟩ := hf s d
    exact ⟨d', by rw [whenRunning_of_not_stopped hs, whenRunning_of_not_stopped (s := { s with display := d }) hs, h]⟩

theorem txAll_ignoresDisplay (es : List Tx) : IgnoresDisplay (txAll es) := by
  intro s d
  cases hs : s.stopped with
  | true => exact ⟨d, by rw [txAll_of_stopped es hs, txAll_of_stopped (s := { s with display := d }) es hs]⟩
  | false =>
    by_cases ha : s.transport.allows es.length
    · rw [txAll_allowed hs ha, txAll_allowed (s := { s with display := d }) hs ha]
      exact ⟨_, rfl⟩
    · obtain ⟨n, hp, hlt⟩ := (Transport.not_allows_iff _ _).1 ha
      have he := List.getElem?_eq_getElem hlt
      rw [txAll_blocked hs hp he, txAll_blocked (s := { s with display := d }) hs hp he]
      exact ⟨_, rfl⟩

theorem Act.run_ignoresDisplay (g : Act) : IgnoresDisplay (Act.run g) :=
  IgnoresDisplay.whenRunning fun s d => txAll_ignoresDisplay (g s.fb).2 { s with fb := (g s.fb).1 } d

theorem runScript_ignoresDisplay (gs : List Act) : IgnoresDisplay (runScript gs) := by
  induction gs with
  | nil => exact fun s d => ⟨d, rfl⟩
  | cons g gs ih => exact ih.comp (Act.run_ignoresDisplay g)

theorem finish_ignoresDisplay (r : ResponseWord) : IgnoresDisplay (finish r) :=
  IgnoresDisplay.whenRunning fun _ d => ⟨d, rfl⟩

theorem powerSeq_ignoresDisplay : IgnoresDisplay powerSeq := IgnoresDisplay.whenRunning fun _ d => ⟨d.unknown, rfl⟩

theorem configure_ignoresDisplay : IgnoresDisplay configure :=
  (IgnoresDisplay.whenRunning (f := fun s => { s with display := s.display.configured })
    fun _ d => ⟨d.configured, rfl⟩).comp (txAll_ignoresDisplay (Config.initSeq.map cmd))

theorem clearBody_ignoresDisplay : IgnoresDisplay clearBody := by
  rw [funext clearBody_eq_script]
  exact runScript_ignoresDisplay clearScript

/-- A command is an action that ignores the display. -/
theorem exec_ignoresDisplay (i : Instr) : ∃ f, IgnoresDisplay f ∧ ∀ s, exec i s = .next (f s) := by
  by_cases hi : clearsDisplay i
  · rcases hi with rfl | rfl
    · exact ⟨_, (finish_ignoresDisplay _).comp clearBody_ignoresDisplay, fun _ => rfl⟩
    · exact ⟨_, (finish_ignoresDisplay _).comp
        (clearBody_ignoresDisplay.comp (configure_ignoresDisplay.comp powerSeq_ignoresDisplay)), fun _ => rfl⟩
  · refine ⟨_, (finish_ignoresDisplay (response (resultCode i))).comp
      (runScript_ignoresDisplay ((pointsOf i).map plotAct)), fun s => ?_⟩
    rw [exec_draw hi, plotAll_eq_script (pointsOf_onDisplay i), respond]

/-- Settles O49: a reset and the other cases of a step each take an action that ignores the display. -/
theorem displayNeverInfluencesEngine : Obligations.DisplayNeverInfluencesEngine := by
  intro s t d h
  by_cases hr : ∃ plan rest, s.inputs = .reset plan :: rest
  · obtain ⟨plan, rest, hin⟩ := hr
    obtain rfl := Host.Outcome.next.inj ((step_of_reset hin).symm.trans h)
    exact ⟨d, step_of_reset (s := { s with display := d }) hin⟩
  push Not at hr
  rcases step_cases h with ⟨plan, rest, hin, -⟩ | ⟨hf, rfl, hw⟩ | ⟨rest, hin, hf, hb, rfl⟩ |
    ⟨w, rest, hin, hf, hb, ⟨why, hd, rfl⟩ | ⟨i, hd, hexec⟩⟩
  · exact absurd hin (hr plan rest)
  · exact ⟨d, step_of_waiting (s := { t with display := d }) hf hr hw⟩
  · exact ⟨_, step_of_bringUp (s := { s with display := d }) hin hf hb⟩
  · obtain ⟨d', h'⟩ := finish_ignoresDisplay rejectResponse (accept w { s with inputs := rest }) d
    exact ⟨d', (step_of_reserved (s := { s with display := d }) hin hf hb hd).trans (congrArg _ h')⟩
  · obtain ⟨f, hign, hrun⟩ := exec_ignoresDisplay i
    obtain rfl := Host.Outcome.next.inj ((hrun _).symm.trans hexec)
    obtain ⟨d', h'⟩ := hign (accept w { s with inputs := rest }) d
    exact ⟨d', (step_of_command (s := { s with display := d }) hin hf hb hd).trans
      ((hrun _).trans (congrArg _ h'))⟩

end Sys2Proof.Machine

/-! Proofs of the statements of 10_state: the reset values, the control invariant, pixels and bits, and the picture that a
program leaves. -/

namespace Sys2Proof.Machine

/-! ## Reset -/

/-- Settles O15: each value is the one reset assigns (R33). -/
theorem resetValues : Obligations.ResetValues := ⟨rfl, rfl, rfl, rfl, rfl, rfl, rfl, rfl, rfl⟩

/-- Settles O51: both stores list no cell at reset. -/
theorem resetMemoryCanonical : Obligations.ResetMemoryCanonical := ⟨Memory.wf_nil, Memory.wf_nil⟩

/-- With no response since reset, the control state of an idle engine is consistent. -/
theorem State.idle.controlConsistent_of_noResponses {s : State} (h : s.idle) (hr : s.responses = []) :
    s.controlConsistent := by
  obtain ⟨-, hf, ho⟩ := h
  exact ⟨by simp [hf], by simp [ho], fun hne => absurd hr hne⟩

/-- Settles O53. -/
theorem resetControlConsistent : Obligations.ResetControlConsistent :=
  State.idle.controlConsistent_of_noResponses ⟨rfl, rfl, rfl⟩ rfl

/-! ## The control state stays consistent -/

/-- An engine that has just responded has consistent control: it is neither halted nor blocked, and `RSP` is the last of its
responses (R29, R80). -/
theorem controlConsistent_of_responded {t : State} {rs : List ResponseWord} (hf : t.fault = false)
    (ho : t.outstanding = none) (hr : t.responses = rs ++ [t.rsp]) : t.controlConsistent :=
  ⟨by simp [hf], by simp [ho], by simp [hr]⟩

/-- A consistent engine that is not busy is idle. -/
theorem State.controlConsistent.idle {s : State} (h : s.controlConsistent) (hb : s.busy = false) : s.idle := by
  obtain ⟨hfault, hout, -⟩ := h
  refine ⟨hb, ?_, ?_⟩
  · simpa [hb] using hfault
  · simpa [hb] using hout

/-- A command either ends with its response, or leaves the engine blocked and busy with its responses as they were. -/
theorem exec_controlConsistent {i : Instr} {s t : State} (h : exec i s = .next t) (hrun : s.running)
    (hlast : s.responses ≠ [] → s.responses.getLast? = some s.rsp) : t.controlConsistent := by
  have hstop := hrun.stopped
  obtain ⟨hbusy, hfault, -⟩ := hrun
  obtain ⟨t', h', -, -, -, hf, hends⟩ := exec_control i s
  obtain rfl : t = t' := Host.Outcome.next.inj (h.symm.trans h')
  rw [hfault] at hf
  rcases hends hstop with ⟨ho, -, hr⟩ | ⟨-, hb, hrsp, hr⟩
  · exact controlConsistent_of_responded hf ho hr
  · exact ⟨by simp [hf], fun _ => hb.trans hbusy, by rwa [hr, hrsp]⟩

/-- Settles O52, case by case over what a step can do; an engine that takes a word is idle by the invariant itself. -/
theorem controlStaysConsistent : Obligations.ControlStaysConsistent := by
  intro s t hs h
  rcases step_cases h with ⟨plan, rest, -, rfl⟩ | ⟨-, rfl, -⟩ | ⟨rest, -, -, -, rfl⟩ |
    ⟨w, rest, -, -, hb, ⟨why, -, rfl⟩ | ⟨i, -, hexec⟩⟩
  · exact State.idle.controlConsistent_of_noResponses ⟨rfl, rfl, rfl⟩ rfl
  · exact hs
  · exact hs
  · obtain ⟨-, hf, ho⟩ := hs.idle hb
    rw [reject, finish_of_not_stopped _ ((hs.idle hb).running_accept w rest).stopped]
    exact controlConsistent_of_responded hf ho rfl
  · have hrun := (hs.idle hb).running_accept w rest
    obtain ⟨-, -, hlast⟩ := hs
    exact exec_controlConsistent hexec hrun hlast

/-! ## Pixels and bits -/

/-- Settles O18: the translator is a bijection between the points of the display and the bits of the cells. -/
theorem pixelsAndBitsCorrespond : Obligations.PixelsAndBitsCorrespond := by
  refine ⟨fun s x y a h => ?_, fun x y hx hy => translate_of_onDisplay ⟨hx, hy⟩, fun a => ?_⟩
  · obtain ⟨hx, hy⟩ := (translate_eq_some_iff x y a).1 h
    have hk := a.bit.isLt
    exact ⟨hx.symm, by omega, by omega, fbPixel_of_translate s.fb h⟩
  · have ha := translate_surjective a
    obtain ⟨hx, hy⟩ := (translate_isSome_iff _ _).1 (Option.isSome_of_eq_some ha)
    exact ⟨_, _, hx, hy, ha, fun x' y' h' => translate_injective h' ha⟩

/-! ## A program of command words runs as its big steps say -/

theorem wordBig_of_command {w : CommandWord} {i : Instr} (h : decode w = .command i) (m : CellStore) :
    wordBig w m =
      { fb := (bigStep i m).fb, responses := [response (bigStep i m).code], trace := (bigStep i m).writes } := by
  simp only [wordBig, h]

theorem wordBig_of_reserved {w : CommandWord} {why : ReservedWord} (h : decode w = .reserved why) (m : CellStore) :
    wordBig w m = { fb := m, responses := [rejectResponse], trace := [] } := by
  simp only [wordBig, h]

/-- The engine has run from one idle state to another with the framebuffer, the responses and the writes of `r`, and the
inputs `rest` are left (R187). -/
structure Ran (r : RunResult) (rest : List Input) (s t : State) : Prop where
  idle      : t.idle
  fb        : t.fb = r.fb
  responses : t.responses = s.responses ++ r.responses
  trace     : t.trace = s.trace ++ r.trace
  transport : t.transport = s.transport.after r.trace.length
  inputs    : t.inputs = rest

/-- One word at the port of an idle engine, a command or a reserved word, when the transport completes its writes. -/
theorem step_ran {s : State} {w : CommandWord} {rest : List Input} (hs : s.idle) (hin : s.inputs = .command w :: rest)
    (ha : s.transport.allows (wordBig w s.fb).trace.length) :
    ∃ t, step s = .next t ∧ Ran (wordBig w s.fb) rest s t := by
  have hrun := hs.running_accept w rest
  obtain ⟨hb, hf, ho⟩ := hs
  cases hd : decode w with
  | command i =>
    rw [wordBig_of_command hd] at ha ⊢
    obtain ⟨t, ht, hfb, hend⟩ := smallStepMatchesBigStep i _ hrun ha
    exact ⟨t, (step_of_command hin hf hb hd).trans ht,
      { idle := ⟨hend.busy, hend.fault.trans hf, hend.outstanding⟩
        fb := hfb
        responses := hend.responses
        trace := hend.trace
        transport := hend.transport
        inputs := hend.inputs }⟩
  | reserved why =>
    rw [wordBig_of_reserved hd, step_of_reserved hin hf hb hd, reject, finish_of_not_stopped _ hrun.stopped]
    exact ⟨_, rfl, ⟨⟨rfl, hf, ho⟩, rfl, rfl, by simp, by simp, rfl⟩⟩

/-- Runs compose. -/
theorem Ran.cons {w : CommandWord} {ws : List CommandWord} {rest rest' : List Input} {s t u : State}
    (h : Ran (wordBig w s.fb) rest s t) (h' : Ran (programBig ws t.fb) rest' t u) :
    Ran (programBig (w :: ws) s.fb) rest' s u := by
  rw [h.fb] at h'
  exact
    { idle := h'.idle
      fb := h'.fb
      responses := by rw [h'.responses, h.responses, List.append_assoc]; rfl
      trace := by rw [h'.trace, h.trace, List.append_assoc]; rfl
      transport := by
        rw [h'.transport, h.transport, Transport.after_after, ← List.length_append]; rfl
      inputs := h'.inputs }

/-- A program at the port of an idle engine, when the transport completes its writes. -/
theorem run_ran {ws : List CommandWord} {s : State} (hs : s.idle) (hin : s.inputs = ws.map Input.command)
    (ha : s.transport.allows (programBig ws s.fb).trace.length) :
    ∃ t, Host.Core.run Sys2Proof.core ws.length s = .next t ∧ Ran (programBig ws s.fb) [] s t := by
  induction ws generalizing s with
  | nil => exact ⟨s, rfl, ⟨hs, rfl, by simp [programBig], by simp [programBig], by simp [programBig], hin⟩⟩
  | cons w ws ih =>
    have hlen : (programBig (w :: ws) s.fb).trace.length =
        (wordBig w s.fb).trace.length + (programBig ws (wordBig w s.fb).fb).trace.length := List.length_append
    rw [hlen, Transport.allows_add] at ha
    obtain ⟨haw, haws⟩ := ha
    obtain ⟨t, ht, hran⟩ := step_ran hs hin haw
    obtain ⟨u, hu, hran'⟩ := ih hran.idle hran.inputs (by rwa [hran.fb, hran.transport])
    exact ⟨u, (run_succ ht ws.length).trans hu, hran.cons hran'⟩

/-! ## The picture -/

/-- The word spells a command that draws the point. -/
def wordDraws (w : CommandWord) (q : Point) : Prop := ∃ i, decode w = .command i ∧ q ∈ pointsOf i

/-- A word that spells neither CLEAR nor INIT turns on exactly the pixels it draws (R23). -/
theorem fbPixel_wordBig {w : CommandWord} (hw : ∀ i, decode w = .command i → ¬ clearsDisplay i) (m : CellStore)
    (x y : Int) : fbPixel (wordBig w m).fb x y = true ↔ fbPixel m x y = true ∨ wordDraws w (x, y) := by
  cases hd : decode w with
  | command i =>
    rw [wordBig_of_command hd, bigStep_draw (hw i hd), fbPixel_drawBig (pointsOf_onDisplay i)]
    simp [wordDraws, hd]
  | reserved why => simp [wordBig_of_reserved hd, wordDraws, hd]

/-- A program without CLEAR and INIT turns on exactly the pixels its words draw (R23). -/
theorem fbPixel_programBig {ws : List CommandWord} (hws : ∀ w ∈ ws, ∀ i, decode w = .command i → ¬ clearsDisplay i)
    (m : CellStore) (x y : Int) :
    fbPixel (programBig ws m).fb x y = true ↔ fbPixel m x y = true ∨ ∃ w ∈ ws, wordDraws w (x, y) := by
  induction ws generalizing m with
  | nil => simp [programBig]
  | cons w ws ih =>
    obtain ⟨hw, hws⟩ := List.forall_mem_cons.1 hws
    rw [List.exists_mem_cons_iff, ← or_assoc, ← fbPixel_wordBig hw]
    exact ih hws _

/-- The word of CLEAR or INIT decodes to it and leaves every cell 0 (R140, R144). -/
theorem fbRead_wordBig_clears {c : Instr} (hc : clearsDisplay c) (m : CellStore) (x : Column) (b : Bank) :
    fbRead (wordBig (encode c) m).fb x b = 0#8 := by
  have hd : decode (encode c) = .command c := by rcases hc with rfl | rfl <;> rw [decode_encode_eq] <;> rfl
  have hfb : (bigStep c m).fb = clearBig m := by
    rcases hc with rfl | rfl
    · rw [bigStep_clear]
    · rw [bigStep_init]
  rw [wordBig_of_command hd, hfb, fbRead_clearBig]

/-- Settles O56: the program's big steps give the framebuffer, which CLEAR or INIT starts with no pixel on. -/
theorem pictureSinceLastClear : Obligations.PictureSinceLastClear := by
  intro s c ws hs hlive hc hws hin
  obtain ⟨t, ht, hran⟩ := run_ran hs hin (by simp [hlive])
  refine ⟨t, ht, hran.idle, fun x y _ _ => ?_⟩
  have hoff := fbPixel_of_zero (fbRead_wordBig_clears hc s.fb) x y
  have hpic := fbPixel_programBig hws (wordBig (encode c) s.fb).fb x y
  simp only [hoff, Bool.false_eq_true, false_or] at hpic
  change fbPixel t.fb x y = true ↔ _
  rw [hran.fb]
  exact hpic

end Sys2Proof.Machine

/-! Proofs of the statements of 20_memory: the translator, plotting a pixel that is on, a transport that hangs, the display's
two kinds of write, and the mirror. -/

namespace Sys2Proof.Machine

/-! ## The translator -/

/-- Settles O17: off the display there is no translation; on it, the address is the one whose numbers make up the point. -/
theorem translatorFollowsDivision : Obligations.TranslatorFollowsDivision := by
  intro x y
  refine ⟨fun hv => ?_, (translate_eq_none_iff x y).2⟩
  obtain ⟨a, ha⟩ := translate_of_onDisplay hv
  obtain ⟨hx, hy⟩ := (translate_eq_some_iff x y a).1 ha
  have hk := a.bit.isLt
  exact ⟨a, ha, hx.symm, by omega, by omega, by omega, by omega⟩

/-! ## SETPIXEL on a pixel that is on -/

/-- The big step of SETPIXEL on a pixel of the display (R102). -/
theorem bigStep_setPixel {x y : Int} {a : PixelAddr} (m : CellStore) (h : translate x y = some a) :
    bigStep (.setPixel x y) m =
      { fb := m.write a.column a.bank (fbRead m a.column a.bank ||| bitMask a.bit)
        code := 0
        writes := triplet a (fbRead m a.column a.bank ||| bitMask a.bit) } := by
  have hv : inX x ∧ inY y := (translate_isSome_iff x y).1 (Option.isSome_of_eq_some h)
  have hpts : pointsOf (.setPixel x y) = [(x, y)] := if_pos hv
  have hcode : resultCode (.setPixel x y) = 0 := if_pos (decide_eq_true hv)
  rw [bigStep_draw (by simp [clearsDisplay]), hpts, hcode, drawBig_cons, plotAct_of_translate m h]
  simp [drawBig]

/-- Setting a bit that is set leaves the byte as it is. -/
theorem or_bitMask_eq_self {v : Byte} {k : BitNo} (h : v.getLsbD k.val = true) : v ||| bitMask k = v := by
  refine BitVec.eq_of_getLsbD_eq fun j _ => ?_
  rw [BitVec.getLsbD_or, bitMask_getLsbD]
  by_cases hj : j = k.val
  · simp [hj, h]
  · simp [hj]

/-- Writing what a cell holds changes no cell. -/
theorem fbRead_write_self (m : CellStore) (x x' : Column) (b b' : Bank) :
    fbRead (m.write x b (fbRead m x b)) x' b' = fbRead m x' b' := by
  rw [fbRead_write]
  split_ifs with h
  · rw [h.1, h.2]
  · rfl

/-- Settles O23: the pixel's mask is already in its cell, so the big step writes and sends the byte that the cell holds. -/
theorem setPixelAgainResends : Obligations.SetPixelAgainResends := by
  intro s x y a hrun ha hon hallow
  have hbyte : fbRead s.fb a.column a.bank ||| bitMask a.bit = fbRead s.fb a.column a.bank :=
    or_bitMask_eq_self ((fbPixel_of_translate s.fb ha).symm.trans hon)
  have hbig := bigStep_setPixel s.fb ha
  rw [hbyte] at hbig
  obtain ⟨t, ht, hfb, hend⟩ := smallStepMatchesBigStep (.setPixel x y) s hrun (by rw [hbig]; exact hallow)
  rw [hbig] at hfb hend
  refine ⟨t, ht, fun c b => ?_, hend.trace⟩
  rw [State.cell, hfb]
  exact fbRead_write_self s.fb _ _ _ _

/-! ## A transport that hangs -/

/-- A script that the transport stops leaves the engine blocked (R57). -/
theorem blocked_hungState (m : CellStore) (ws : List Tx) (e : Tx) (s : State) :
    Blocked ws e s (hungState m ws e s) :=
  ⟨rfl, rfl, rfl, rfl, rfl, rfl, rfl, rfl, rfl, rfl, rfl, rfl⟩

/-- The frame of a blocked command says nothing of the display it began with. -/
theorem Blocked.of_withDisplay {ws : List Tx} {e : Tx} {d : Display} {s t : State}
    (h : Blocked ws e { s with display := d } t) : Blocked ws e s t := { h with }

/-- An engine blocked after the configuration is blocked counting from before it, the configuration's writes first (R144). -/
theorem Blocked.of_configuredState {ws : List Tx} {e : Tx} {s t : State} (h : Blocked ws e (configuredState s) t) :
    Blocked (configWrites ++ ws) e s t :=
  { h with trace := by rw [h.trace, configuredState_trace, List.append_assoc] }

/-- INIT stopped by the transport, in either of its phases (R57, R144). -/
theorem exec_init_blocked {s : State} {n : Nat} (hs : s.stopped = false) (hp : s.transport = .hangsAfter n)
    (hn : n < (configWrites ++ clearWrites).length) :
    ∃ t e, exec .init s = .next t ∧ (configWrites ++ clearWrites)[n]? = some e ∧
      Blocked ((configWrites ++ clearWrites).take n) e s t := by
  rw [List.length_append] at hn
  by_cases hconf : n < configWrites.length
  · obtain ⟨e, he, hexec⟩ := exec_init_hung_configuring hs hp hconf
    rw [List.getElem?_append_left hconf, List.take_append_of_le_length hconf.le]
    exact ⟨_, e, hexec, he, (blocked_hungState s.fb _ e _).of_withDisplay⟩
  · have hle : configWrites.length ≤ n := not_lt.1 hconf
    obtain ⟨e, m, he, hexec, -⟩ := exec_init_hung_clearing hs hp hle hn
    rw [List.getElem?_append_right hle, List.take_append, List.take_of_length_le hle]
    exact ⟨_, e, hexec, he, (blocked_hungState m _ e (configuredState s)).of_configuredState⟩

/-- Settles O41: CLEAR, INIT and the drawing commands, each stopped by the transport. -/
theorem hungTransportBlocks : Obligations.HungTransportBlocks := by
  intro i s n hrun hp hn
  have hs := hrun.stopped
  by_cases hi : clearsDisplay i
  · rcases hi with rfl | rfl
    · rw [bigStep_clear] at hn ⊢
      obtain ⟨e, m, he, hexec, -⟩ := exec_clear_hung hs hp hn
      exact ⟨_, e, hexec, he, blocked_hungState m _ e s⟩
    · rw [bigStep_init] at hn ⊢
      exact exec_init_blocked hs hp hn
  · rw [bigStep_draw hi] at hn ⊢
    obtain ⟨e, he, hexec⟩ := exec_draw_hung hi hs hp hn
    exact ⟨_, e, hexec, he, blocked_hungState _ _ e s⟩

/-- Settles O42: the framebuffer is the drawing of the points whose triplets were begun. -/
theorem hungDrawingKeepsUpdates : Obligations.HungDrawingKeepsUpdates := by
  intro i s n hi hrun hp hn
  have hon := pointsOf_onDisplay i
  obtain ⟨e, -, hexec⟩ := exec_draw_hung hi hrun.stopped hp (by rwa [length_drawBig hon])
  refine ⟨_, hexec, fun x y => ?_⟩
  rw [State.pixel, State.pixel, hungState_fb, fbPixel_drawBig fun q hq => hon q (List.mem_of_mem_take hq)]
  simp

/-- A command that ends could run, and the transport completed all of its writes (R57, R185). -/
theorem exec_ended_inv {i : Instr} {s t : State} (h : exec i s = .next t) (hb : s.busy = true) (ht : t.busy = false) :
    s.stopped = false ∧ s.transport.allows (bigStep i s.fb).writes.length := by
  cases hs : s.stopped with
  | true =>
    obtain rfl := Host.Outcome.next.inj ((exec_of_stopped i hs).symm.trans h)
    simp [hb] at ht
  | false =>
    refine ⟨rfl, by_contra fun hna => ?_⟩
    obtain ⟨n, hp, hlt⟩ := (Transport.not_allows_iff _ _).1 hna
    obtain ⟨t', e, h', -, hblocked⟩ := hungTransportBlocks i s n ⟨hb, (stopped_eq_false_iff s).1 hs⟩ hp hlt
    obtain rfl := Host.Outcome.next.inj (h'.symm.trans h)
    simp [hblocked.busy, hb] at ht

/-! ## The display's two kinds of write -/

theorem colCmd_injective {x x' : Column} (h : colCmd x = colCmd x') : x = x' := by
  simpa using congrArg displayCommand h

theorem bankCmd_injective {b b' : Bank} (h : bankCmd b = bankCmd b') : b = b' := by
  simpa using congrArg displayCommand h

theorem colCmd_ne_bankCmd (x : Column) (b : Bank) : colCmd x ≠ bankCmd b := fun h => by
  simpa using congrArg displayCommand h

/-- Settles O47: the display reads back which address command a byte is, so no two share a byte. -/
theorem addressCommandsMovePointer : Obligations.AddressCommandsMovePointer :=
  ⟨fun _ hd => ⟨take_colCmd hd, take_bankCmd hd⟩, fun _ _ => colCmd_injective, fun _ _ => bankCmd_injective,
    colCmd_ne_bankCmd⟩

/-- Settles O48: on a display that obeys the rule the write is `Display.dataWrite`. -/
theorem dataWriteStoresAndAdvances : Obligations.DataWriteStoresAndAdvances := by
  intro d v hd
  rw [take_dat hd]
  refine ⟨?_, fun x b hne => ?_, fun hcol => ?_, ?_⟩
  · rw [dataWrite_byte, if_pos ⟨rfl, rfl⟩]
  · rw [dataWrite_byte, if_neg hne]
  · obtain ⟨hc, hb⟩ := dataWrite_pointer v (show d.column.val + 1 < 84 by omega)
    exact ⟨congrArg Fin.val hc, hb⟩
  · rw [dataWrite_ready, hd]

/-! ## The mirror -/

/-- The command leaves the display mirroring the framebuffer, if it ends: INIT from any state, CLEAR on a display that obeys
R61 and R62, and every command where the mirror holds already (R63, R64; log 13 for INIT). -/
def mirrorsOnEnd (i : Instr) (s : State) : Prop := i = .init ∨ i = .clear ∧ s.display.ready = true ∨ s.mirrored

/-- Answering after a script leaves the mirror as the script's writes leave it. -/
theorem mirrored_respond_doneState {c : Int} {m : CellStore} {ws : List Tx} {s : State}
    (h : holds (ws.foldl Display.take s.display) m) : (respond c (doneState m ws s)).mirrored := by
  unfold State.mirrored State.cell
  rw [respond_display, respond_fb]
  exact h

/-- A command that the transport completes: CLEAR and INIT zero both stores, a drawing changes both alike (R64, R67, R141). -/
theorem exec_mirrored {i : Instr} {s : State} (hs : s.stopped = false)
    (ha : s.transport.allows (bigStep i s.fb).writes.length) (hm : mirrorsOnEnd i s) :
    ∃ t, exec i s = .next t ∧ t.mirrored := by
  by_cases hi : clearsDisplay i
  · rcases hi with rfl | rfl
    · have hready : s.display.ready = true := by
        rcases hm with hm | ⟨-, hready⟩ | ⟨hready, -⟩
        · cases hm
        · exact hready
        · exact hready
      rw [bigStep_clear] at ha
      exact ⟨_, exec_clear_done hs ha, mirrored_respond_doneState (holds_clear hready s.fb)⟩
    · rw [bigStep_init] at ha
      exact ⟨_, exec_init_done hs ha,
        mirrored_respond_doneState (s := configuredState s) (holds_clear rfl s.fb)⟩
  · have hmirror : s.mirrored := by
      rcases hm with rfl | ⟨rfl, -⟩ | hm
      · exact absurd (.inr rfl) hi
      · exact absurd (.inl rfl) hi
      · exact hm
    rw [bigStep_draw hi] at ha
    exact ⟨_, exec_draw_done hi hs ha, mirrored_respond_doneState (holds_drawBig hmirror)⟩

/-- A command either ends, with the mirror, or leaves the engine busy (R57, R64). -/
theorem exec_mirrorInv {i : Instr} {s t : State} (h : exec i s = .next t) (hb : s.busy = true) (hm : mirrorsOnEnd i s) :
    t.mirrorInv := by
  intro ht
  obtain ⟨hs, ha⟩ := exec_ended_inv h hb ht
  obtain ⟨t', h', hmirror⟩ := exec_mirrored hs ha hm
  obtain rfl := Host.Outcome.next.inj (h'.symm.trans h)
  exact hmirror

/-- Settles O54, case by case over what a step can do; the host neither resets nor brings the display up. -/
theorem mirrorIsKept : Obligations.MirrorIsKept := by
  intro s t hhost hinv h
  rcases step_cases h with ⟨plan, rest, hin, -⟩ | ⟨-, rfl, -⟩ | ⟨rest, hin, -⟩ |
    ⟨w, rest, -, -, hb, ⟨why, -, rfl⟩ | ⟨i, -, hexec⟩⟩
  · simp [State.hostKeepsDisplay, hin] at hhost
  · exact hinv
  · simp [State.hostKeepsDisplay, hin] at hhost
  · intro _
    unfold State.mirrored State.cell
    rw [reject, finish_display, finish_fb]
    exact hinv hb
  · exact exec_mirrorInv hexec rfl (.inr (.inr (hinv hb)))

/-- Along any command words, an idle engine with the mirror and a live transport is idle with the mirror after each (R64). -/
theorem run_mirrored {ws : List CommandWord} {k : Nat} {s : State} (hs : s.idle) (hlive : s.transport = .live)
    (hm : s.mirrored) (hin : s.inputs = ws.map Input.command) (hk : k ≤ ws.length) :
    ∃ t, Host.Core.run Sys2Proof.core k s = .next t ∧ t.idle ∧ t.mirrored := by
  induction k generalizing ws s with
  | zero => exact ⟨s, rfl, hs, hm⟩
  | succ k ih =>
    cases ws with
    | nil => simp at hk
    | cons w ws =>
      obtain ⟨t, ht, hran⟩ := step_ran hs hin (by simp [hlive])
      have hmt : t.mirrored := mirrorIsKept s t (.inr ⟨w, _, hin⟩) (fun _ => hm) ht hran.idle.1
      rw [run_succ ht]
      exact ih hran.idle (by rw [hran.transport, hlive]; rfl) hmt hran.inputs (Nat.le_of_succ_le_succ hk)

/-- Settles O55: the first command sets the mirror up, and every later word keeps it. -/
theorem mirrorAfterFirstClear : Obligations.MirrorAfterFirstClear := by
  intro s c ws k hs hlive hc hin hk
  have hd : decode (encode c) = .command c := by rcases hc with rfl | ⟨rfl, -⟩ <;> rw [decode_encode_eq] <;> rfl
  obtain ⟨t, ht, hran⟩ := step_ran hs hin (by simp [hlive])
  obtain ⟨hbusy, hfault, -⟩ := hs
  have hexec := (step_of_command hin hfault hbusy hd).symm.trans ht
  have hmt : t.mirrored := exec_mirrorInv hexec rfl (hc.imp_right .inl) hran.idle.1
  rw [run_succ ht]
  exact run_mirrored hran.idle (by rw [hran.transport, hlive]; rfl) hmt hran.inputs hk

end Sys2Proof.Machine

/-! Proofs of the statements of 30_encoding: the decoder and the encoder, the table rows, the responses, the step that takes a
word, and the assembler. -/

namespace Sys2Proof

/-! ## Well-formed commands -/

theorem wellFormed_setPixel (x y : Int) :
    (Instr.setPixel x y).wellFormed = true ↔ Encodable x ∧ Encodable y := by
  simp only [Instr.wellFormed, Bool.and_eq_true, decide_eq_true_eq]

theorem wellFormed_axisLine (x y ori : Int) :
    (Instr.axisLine x y ori).wellFormed = true ↔ (Encodable x ∧ Encodable y) ∧ Encodable ori := by
  simp only [Instr.wellFormed, Bool.and_eq_true, decide_eq_true_eq]

theorem wellFormed_line (x0 y0 x1 y1 : Int) :
    (Instr.line x0 y0 x1 y1).wellFormed = true ↔ ((Encodable x0 ∧ Encodable y0) ∧ Encodable x1) ∧ Encodable y1 := by
  simp only [Instr.wellFormed, Bool.and_eq_true, decide_eq_true_eq]

/-! ## Decode and encode -/

section shapes
variable {f : Fields}

theorem decodeFields_setPixel (h : f.op = 1#8 ∧ f.p2 = 0#16 ∧ f.p3 = 0#16) :
    decodeFields f = .command (.setPixel (sext16 f.p0) (sext16 f.p1)) := by
  simp [decodeFields, h]

theorem decodeFields_axisLine (h : f.op = 2#8 ∧ f.p3 = 0#16) :
    decodeFields f = .command (.axisLine (sext16 f.p0) (sext16 f.p1) (sext16 f.p2)) := by
  simp [decodeFields, h]

theorem decodeFields_line (h : f.op = 3#8) :
    decodeFields f = .command (.line (sext16 f.p0) (sext16 f.p1) (sext16 f.p2) (sext16 f.p3)) := by
  simp [decodeFields, h]

theorem decodeFields_clear (h : f.op = 4#8 ∧ f.p0 = 0#16 ∧ f.p1 = 0#16 ∧ f.p2 = 0#16 ∧ f.p3 = 0#16) :
    decodeFields f = .command .clear := by
  simp [decodeFields, h]

theorem decodeFields_init (h : f.op = 5#8 ∧ f.p0 = 0#16 ∧ f.p1 = 0#16 ∧ f.p2 = 0#16 ∧ f.p3 = 0#16) :
    decodeFields f = .command .init := by
  simp [decodeFields, h]

/-- What the decoder reads as a command are that command's own fields, one arm of R82 after another. -/
theorem encodeFields_of_decodeFields {i : Instr} (h : decodeFields f = .command i) :
    i.wellFormed = true ∧ encodeFields i = f := by
  obtain ⟨op, p0, p1, p2, p3⟩ := f
  simp only [decodeFields] at h
  split_ifs at h with hop hz _ hz hop _ hz _ hz <;> cases h <;> subst op
  · obtain ⟨rfl, rfl⟩ := hz
    exact ⟨(wellFormed_setPixel _ _).2 ⟨encodable_sext16 p0, encodable_sext16 p1⟩,
      by simp only [encodeFields, operandField_sext16]⟩
  · subst hz
    exact ⟨(wellFormed_axisLine _ _ _).2 ⟨⟨encodable_sext16 p0, encodable_sext16 p1⟩, encodable_sext16 p2⟩,
      by simp only [encodeFields, operandField_sext16]⟩
  · exact ⟨(wellFormed_line _ _ _ _).2
        ⟨⟨⟨encodable_sext16 p0, encodable_sext16 p1⟩, encodable_sext16 p2⟩, encodable_sext16 p3⟩,
      by simp only [encodeFields, operandField_sext16]⟩
  · obtain ⟨rfl, rfl, rfl, rfl⟩ := hz
    exact ⟨rfl, rfl⟩
  · obtain ⟨rfl, rfl, rfl, rfl⟩ := hz
    exact ⟨rfl, rfl⟩

end shapes

/-- Settles O3: a command's fields are in its row, and each operand survives its field (R72, R74). -/
theorem decodeInvertsEncode : Obligations.DecodeInvertsEncode := by
  intro i hi
  rw [decode_encode_eq]
  cases i with
  | setPixel x y =>
    obtain ⟨hx, hy⟩ := (wellFormed_setPixel x y).1 hi
    rw [decodeFields_setPixel ⟨rfl, rfl, rfl⟩]
    simp only [encodeFields, sext16_operandField hx, sext16_operandField hy]
  | axisLine x y ori =>
    obtain ⟨⟨hx, hy⟩, hori⟩ := (wellFormed_axisLine x y ori).1 hi
    rw [decodeFields_axisLine ⟨rfl, rfl⟩]
    simp only [encodeFields, sext16_operandField hx, sext16_operandField hy, sext16_operandField hori]
  | line x0 y0 x1 y1 =>
    obtain ⟨⟨⟨hx0, hy0⟩, hx1⟩, hy1⟩ := (wellFormed_line x0 y0 x1 y1).1 hi
    rw [decodeFields_line rfl]
    simp only [encodeFields, sext16_operandField hx0, sext16_operandField hy0, sext16_operandField hx1,
      sext16_operandField hy1]
  | clear => exact decodeFields_clear ⟨rfl, rfl, rfl, rfl, rfl⟩
  | init => exact decodeFields_init ⟨rfl, rfl, rfl, rfl, rfl⟩

/-- Settles O4: the fields of a word determine it. -/
theorem encodeInvertsDecode : Obligations.EncodeInvertsDecode := fun w i h => by
  obtain ⟨hwf, hf⟩ := encodeFields_of_decodeFields h
  exact ⟨hwf, by rw [encode, hf, ofFields_fields]⟩

/-! ## The rows of the opcode table -/

/-- The fields are in the command's row: the row's opcode, and zero wherever the row has a zero (R74, R76). -/
def Fields.inRow (f : Fields) : Instr → Prop
  | .setPixel _ _ => f.op = 1#8 ∧ f.p2 = 0#16 ∧ f.p3 = 0#16
  | .axisLine _ _ _ => f.op = 2#8 ∧ f.p3 = 0#16
  | .line _ _ _ _ => f.op = 3#8
  | .clear => f.op = 4#8 ∧ f.p0 = 0#16 ∧ f.p1 = 0#16 ∧ f.p2 = 0#16 ∧ f.p3 = 0#16
  | .init => f.op = 5#8 ∧ f.p0 = 0#16 ∧ f.p1 = 0#16 ∧ f.p2 = 0#16 ∧ f.p3 = 0#16

/-- A word is in the row of the command it decodes to. -/
theorem inRow_of_decode {w : CommandWord} {i : Instr} (h : decode w = .command i) : (fields w).inRow i := by
  obtain ⟨-, hf⟩ := encodeFields_of_decodeFields h
  rw [← hf]
  cases i <;> simp only [encodeFields, Fields.inRow, and_self]

/-- Settles O1: each row decodes as its arm says, and a word that decodes to a command is in that command's row. -/
theorem decodeFollowsPseudocode : Obligations.DecodeFollowsPseudocode := by
  intro w
  refine ⟨decodeFields_setPixel (f := fields w), decodeFields_axisLine (f := fields w),
    decodeFields_line (f := fields w), decodeFields_clear (f := fields w), decodeFields_init (f := fields w),
    fun hset haxis hline hzero => ?_⟩
  cases hd : decode w with
  | reserved why => exact ⟨why, rfl⟩
  | command i =>
    have hrow := inRow_of_decode hd
    cases i with
    | setPixel x y => exact absurd hrow hset
    | axisLine x y ori => exact absurd hrow haxis
    | line x0 y0 x1 y1 => exact absurd hrow hline
    | clear => exact absurd (hrow.imp_left .inl) hzero
    | init => exact absurd (hrow.imp_left .inr) hzero

/-- A mask that covers the opcode keeps it. -/
theorem opcode_and_mask (op : Byte) : op &&& 0xFF#8 = op := BitVec.and_allOnes

/-- A mask that covers an operand field keeps it. -/
theorem field_and_mask (p : Field) : p &&& 0xFFFF#16 = p := BitVec.and_allOnes

/-- A word is in a row exactly when its masked bits are the row's match (R74). -/
theorem and_mask_eq_iff_inRow (w : CommandWord) (i : Instr) :
    w &&& Laws.OpcodeRow.mask i = ofFields ⟨Laws.OpcodeRow.opcode i, 0#16, 0#16, 0#16, 0#16⟩ ↔ (fields w).inRow i := by
  rw [and_eq_ofFields_iff]
  cases i <;> simp [Laws.OpcodeRow.mask, Laws.OpcodeRow.opcode, Fields.inRow, opcode_and_mask, field_and_mask]

/-- Settles O2: the masks and matches are those of the rows, and a row decodes to its mnemonic and nothing else does. -/
theorem decodeSelectsTableRow : Obligations.DecodeSelectsTableRow := by
  intro w
  refine ⟨.trans ⟨?_, ?_⟩ (and_mask_eq_iff_inRow w (.setPixel 0 0)).symm,
    .trans ⟨?_, ?_⟩ (and_mask_eq_iff_inRow w (.axisLine 0 0 0)).symm,
    .trans ⟨?_, ?_⟩ (and_mask_eq_iff_inRow w (.line 0 0 0 0)).symm,
    .trans ⟨inRow_of_decode, decodeFields_clear⟩ (and_mask_eq_iff_inRow w .clear).symm,
    .trans ⟨inRow_of_decode, decodeFields_init⟩ (and_mask_eq_iff_inRow w .init).symm⟩
  · exact fun ⟨_, _, h⟩ => (inRow_of_decode h :)
  · exact fun h => ⟨_, _, decodeFields_setPixel h⟩
  · exact fun ⟨_, _, _, h⟩ => (inRow_of_decode h :)
  · exact fun h => ⟨_, _, _, decodeFields_axisLine h⟩
  · exact fun ⟨_, _, _, _, h⟩ => (inRow_of_decode h :)
  · exact fun h => ⟨_, _, _, _, decodeFields_line h⟩

/-- Settles O5: each word decodes as written. -/
theorem wordsOfTheSpecDecode : Obligations.WordsOfTheSpecDecode := by
  unfold Obligations.WordsOfTheSpecDecode
  decide

end Sys2Proof

namespace Sys2Proof.Machine

/-- Settles O6: the response words are computed. -/
theorem responseWords : Obligations.ResponseWords := by
  unfold Obligations.ResponseWords
  decide

/-! ## The step that takes a word -/

/-- Settles O7: the state written out is the one that has accepted the word (R70, R71). -/
theorem stepRunsDecodedCommand : Obligations.StepRunsDecodedCommand := by
  rintro s w rest i ⟨hb, hf, -⟩ hin hd
  exact step_of_command hin hf hb hd

theorem decodeTableWord_eq_some_iff {nbits w : Nat} {i : Instr} :
    decodeTableWord nbits w = some i ↔ decode (tableWord nbits w) = .command i := by
  unfold decodeTableWord
  cases decode (tableWord nbits w) <;> simp

/-- Settles O8: the placed word is the next input. -/
theorem stepRunsFetchWord : Obligations.StepRunsFetchWord := by
  rintro s nbits w i ⟨hb, hf, -⟩ hd
  exact step_of_command (s := s.withFetchWord nbits w) rfl hf hb (decodeTableWord_eq_some_iff.1 hd)

/-! ## Tokens -/

theorem isDelimiter_iff (c : Char) : isDelimiter c = true ↔ c = ' ' ∨ c = '\t' ∨ c = ',' := by
  simp [isDelimiter, or_assoc]

theorem isDelimiter_eq_false_iff (c : Char) : isDelimiter c = false ↔ c ≠ ' ' ∧ c ≠ '\t' ∧ c ≠ ',' := by
  simp [isDelimiter, and_assoc]

@[simp] theorem tokens_nil : tokens [] = [] := rfl

/-- A delimiter where no token is being read is skipped (R87). -/
theorem tokens_cons_of_delimiter {c : Char} (h : isDelimiter c = true) (cs : List Char) :
    tokens (c :: cs) = tokens cs := by
  simp [tokens, tokensFrom, h]

theorem tokens_append_of_delimiters {delims : List Char} (h : ∀ c ∈ delims, isDelimiter c = true) (cs : List Char) :
    tokens (delims ++ cs) = tokens cs := by
  induction delims with
  | nil => rfl
  | cons c delims ih =>
    obtain ⟨hc, hdelims⟩ := List.forall_mem_cons.1 h
    rw [List.cons_append, tokens_cons_of_delimiter hc, ih hdelims]

/-- Other characters are read into the token, which is kept backwards. -/
theorem tokensFrom_append_of_run {run : List Char} (h : ∀ c ∈ run, isDelimiter c = false) (acc cs : List Char) :
    tokensFrom acc (run ++ cs) = tokensFrom (run.reverse ++ acc) cs := by
  induction run generalizing acc with
  | nil => rfl
  | cons c run ih =>
    obtain ⟨hc, hrun⟩ := List.forall_mem_cons.1 h
    simp [tokensFrom, hc, ih hrun]

/-- A token ends at the end of the line and at a delimiter. -/
theorem tokensFrom_of_tokenEnd {acc rest : List Char} (hacc : acc ≠ []) (h : ∀ c ∈ rest.head?, isDelimiter c = true) :
    tokensFrom acc rest = acc.reverse :: tokens rest := by
  cases rest with
  | nil => simp [tokensFrom, hacc]
  | cons c cs =>
    have hc : isDelimiter c = true := h c rfl
    rw [tokens_cons_of_delimiter hc]
    simp [tokensFrom, hc, hacc, tokens]

/-- The first token of a line, after any delimiters (R87, D23). -/
theorem tokens_append_token {delims token rest : List Char} (hdelims : ∀ c ∈ delims, isDelimiter c = true)
    (hne : token ≠ []) (htoken : ∀ c ∈ token, isDelimiter c = false)
    (hrest : ∀ c ∈ rest.head?, isDelimiter c = true) : tokens (delims ++ token ++ rest) = token :: tokens rest := by
  rw [List.append_assoc, tokens_append_of_delimiters hdelims, tokens, tokensFrom_append_of_run htoken,
    List.append_nil, tokensFrom_of_tokenEnd (by simpa using hne) hrest, List.reverse_reverse]

/-! ## Digits and arguments -/

@[simp] theorem digit_decimalDigit (d : Fin 10) : digit (decimalDigit d) = some d.val := by decide +revert

theorem decimalDigit_ne_minus (d : Fin 10) : decimalDigit d ≠ '-' := by decide +revert

theorem digit_eq_some_iff (c : Char) (n : Nat) : digit c = some n ↔ ∃ d : Fin 10, c = decimalDigit d ∧ n = d.val := by
  constructor
  · intro h
    simp only [digit, Option.ite_none_right_eq_some, Option.some.injEq] at h
    obtain ⟨⟨hlo, hhi⟩, rfl⟩ := h
    refine ⟨⟨c.toNat - 48, by omega⟩, ?_, rfl⟩
    rw [decimalDigit, Nat.add_sub_cancel' hlo, Char.ofNat_toNat]
  · rintro ⟨d, rfl, rfl⟩
    exact digit_decimalDigit d

/-- The number that digits spell, read on from `n`. -/
def valueFrom (n : Nat) (ds : List (Fin 10)) : Nat := ds.foldl (fun n d => 10 * n + d.val) n

theorem valueFrom_cons (n : Nat) (d : Fin 10) (ds : List (Fin 10)) :
    valueFrom n (d :: ds) = valueFrom (10 * n + d.val) ds := rfl

theorem natCast_valueFrom (n : Nat) (ds : List (Fin 10)) :
    (valueFrom n ds : Int) = ds.foldl (fun v d => 10 * v + (d.val : Int)) (n : Int) := by
  induction ds generalizing n with
  | nil => rfl
  | cons d ds ih => simp [valueFrom_cons, ih]

theorem decimalValue_eq (ds : List (Fin 10)) : decimalValue ds = valueFrom 0 ds := (natCast_valueFrom 0 ds).symm

theorem digitsFrom_eq_some_iff (n : Nat) (cs : List Char) (m : Nat) :
    digitsFrom n cs = some m ↔ ∃ ds : List (Fin 10), cs = ds.map decimalDigit ∧ m = valueFrom n ds := by
  induction cs generalizing n with
  | nil => simpa [digitsFrom, valueFrom] using eq_comm
  | cons c cs ih =>
    constructor
    · intro h
      cases hc : digit c with
      | none => simp [digitsFrom, hc] at h
      | some k =>
        obtain ⟨d, rfl, rfl⟩ := (digit_eq_some_iff c k).1 hc
        simp only [digitsFrom, hc, ih] at h
        obtain ⟨ds, rfl, hm⟩ := h
        exact ⟨d :: ds, rfl, hm⟩
    · rintro ⟨ds, hcs, hm⟩
      cases ds with
      | nil => cases hcs
      | cons d ds =>
        obtain ⟨rfl, rfl⟩ := List.cons.inj hcs
        simp only [digitsFrom, digit_decimalDigit, ih]
        exact ⟨ds, rfl, hm⟩

/-- A natural number is one or more digits that spell it. -/
theorem natural_eq_some_iff (cs : List Char) (m : Nat) :
    natural cs = some m ↔ ∃ ds : List (Fin 10), ds ≠ [] ∧ cs = ds.map decimalDigit ∧ m = valueFrom 0 ds := by
  rw [natural, Option.ite_none_left_eq_some, digitsFrom_eq_some_iff, ← exists_and_left]
  refine exists_congr fun ds => and_congr_left ?_
  rintro ⟨rfl, -⟩
  simp

theorem integer_cons_minus (cs : List Char) : integer ('-' :: cs) = (natural cs).map fun (m : Nat) => -(m : Int) := rfl

theorem integer_of_head_ne_minus {cs : List Char} (h : cs.head? ≠ some '-') :
    integer cs = (natural cs).map fun (m : Nat) => (m : Int) := by
  cases cs with
  | nil => rfl
  | cons c cs =>
    have hc : c ≠ '-' := by simpa using h
    simp [integer, hc]

/-- No run of digits begins with `-`. -/
theorem head_digits_ne_minus (ds : List (Fin 10)) : (ds.map decimalDigit).head? ≠ some '-' := by
  cases ds with
  | nil => simp
  | cons d ds => simpa using decimalDigit_ne_minus d

/-- An integer is digits that spell it, or `-` and digits that spell its opposite (R89). -/
theorem integer_eq_some_iff (cs : List Char) (n : Int) :
    integer cs = some n ↔ ∃ ds : List (Fin 10), ds ≠ [] ∧
      ((cs = ds.map decimalDigit ∧ n = decimalValue ds) ∨ (cs = '-' :: ds.map decimalDigit ∧ n = -decimalValue ds)) := by
  constructor
  · intro h
    by_cases hc : cs.head? = some '-'
    · obtain ⟨cs, rfl⟩ := List.head?_eq_some_iff.1 hc
      rw [integer_cons_minus, Option.map_eq_some_iff] at h
      obtain ⟨m, hm, rfl⟩ := h
      obtain ⟨ds, hne, rfl, rfl⟩ := (natural_eq_some_iff cs m).1 hm
      exact ⟨ds, hne, .inr ⟨rfl, by rw [decimalValue_eq]⟩⟩
    · rw [integer_of_head_ne_minus hc, Option.map_eq_some_iff] at h
      obtain ⟨m, hm, rfl⟩ := h
      obtain ⟨ds, hne, rfl, rfl⟩ := (natural_eq_some_iff cs m).1 hm
      exact ⟨ds, hne, .inl ⟨rfl, (decimalValue_eq ds).symm⟩⟩
  · rintro ⟨ds, hne, hcs⟩
    have hds : natural (ds.map decimalDigit) = some (valueFrom 0 ds) := (natural_eq_some_iff _ _).2 ⟨ds, hne, rfl, rfl⟩
    rcases hcs with ⟨rfl, rfl⟩ | ⟨rfl, rfl⟩
    · rw [integer_of_head_ne_minus (head_digits_ne_minus ds), hds, decimalValue_eq, Option.map_some]
    · rw [integer_cons_minus, hds, decimalValue_eq, Option.map_some]

theorem argument_eq_some_iff (cs : List Char) (n : Int) : argument cs = some n ↔ Encodable n ∧ integer cs = some n := by
  unfold argument
  cases integer cs with
  | none => simp
  | some m =>
    simp only [Option.ite_none_right_eq_some, Option.some.injEq]
    exact ⟨by rintro ⟨h, rfl⟩; exact ⟨h, rfl⟩, by rintro ⟨h, rfl⟩; exact ⟨h, rfl⟩⟩

theorem arguments_cons_eq_some_iff (t : List Char) (ts : List (List Char)) (l : List Int) :
    arguments (t :: ts) = some l ↔ ∃ n ns, argument t = some n ∧ arguments ts = some ns ∧ n :: ns = l := by
  rw [arguments]
  cases argument t <;> cases arguments ts <;> simp

/-- Arguments are read one by one (R89). -/
theorem arguments_eq_some_iff (args : List (List Char)) (ns : List Int) :
    arguments args = some ns ↔ args.map argument = ns.map some := by
  induction args generalizing ns with
  | nil => cases ns <;> simp [arguments]
  | cons t ts ih => cases ns <;> simp [arguments_cons_eq_some_iff, ih]

/-- Settles O58: a token is read up to the next delimiter, an argument by its sign and digits. -/
theorem tokensAndArguments : Obligations.TokensAndArguments := by
  simp only [Obligations.TokensAndArguments, ← isDelimiter_iff, ← isDelimiter_eq_false_iff]
  refine ⟨fun delims h => ?_, fun delims token rest => tokens_append_token, fun cs n => ?_, arguments_eq_some_iff⟩
  · simpa using tokens_append_of_delimiters h []
  · rw [argument_eq_some_iff, integer_eq_some_iff, and_assoc]

/-! ## Lines -/

/-- The name and the arguments are those of the command, a row of the command table (R88). -/
def namesCommand (name : List Char) (ns : List Int) (i : Instr) : Prop :=
  (name = ['S', 'E', 'T', 'P', 'I', 'X', 'E', 'L'] ∧ ∃ x y, ns = [x, y] ∧ i = .setPixel x y) ∨
  (name = ['A', 'X', 'I', 'S', 'L', 'I', 'N', 'E'] ∧ ∃ x y ori, ns = [x, y, ori] ∧ i = .axisLine x y ori) ∨
  (name = ['L', 'I', 'N', 'E'] ∧ ∃ x0 y0 x1 y1, ns = [x0, y0, x1, y1] ∧ i = .line x0 y0 x1 y1) ∨
  (name = ['C', 'L', 'E', 'A', 'R'] ∧ ns = [] ∧ i = .clear) ∨ (name = ['I', 'N', 'I', 'T'] ∧ ns = [] ∧ i = .init)

theorem commandOf_eq_some_iff (name : List Char) (ns : List Int) (i : Instr) :
    commandOf name ns = some i ↔ namesCommand name ns i := by
  constructor
  · intro h
    unfold commandOf at h
    split_ifs at h with h1 h2 h3 h4 h5
    · split at h <;> cases h
      exact .inl ⟨h1, _, _, rfl, rfl⟩
    · split at h <;> cases h
      exact .inr (.inl ⟨h2, _, _, _, rfl, rfl⟩)
    · split at h <;> cases h
      exact .inr (.inr (.inl ⟨h3, _, _, _, _, rfl, rfl⟩))
    · split at h <;> cases h
      exact .inr (.inr (.inr (.inl ⟨h4, rfl, rfl⟩)))
    · split at h <;> cases h
      exact .inr (.inr (.inr (.inr ⟨h5, rfl, rfl⟩)))
  · rintro (⟨rfl, x, y, rfl, rfl⟩ | ⟨rfl, x, y, ori, rfl, rfl⟩ | ⟨rfl, x0, y0, x1, y1, rfl, rfl⟩ | ⟨rfl, rfl, rfl⟩ |
      ⟨rfl, rfl, rfl⟩) <;> rfl

/-- A line spells a command by its first token and its arguments (R87, R90). -/
theorem parseLine_eq_some_iff (line : List Char) (i : Instr) :
    parseLine line = some i ↔
      ∃ name args ns, tokens line = name :: args ∧ arguments args = some ns ∧ commandOf name ns = some i := by
  rw [parseLine]
  cases tokens line with
  | nil => simp
  | cons name args => cases h : arguments args <;> simp [h]

theorem assemble_eq_some_iff (line : List Char) (w : CommandWord) :
    assemble line = some w ↔
      ∃ name args ns i, tokens line = name :: args ∧ arguments args = some ns ∧ w = encode i ∧ namesCommand name ns i := by
  rw [assemble, Option.map_eq_some_iff]
  constructor
  · rintro ⟨i, hi, rfl⟩
    obtain ⟨name, args, ns, hline, hargs, hcommand⟩ := (parseLine_eq_some_iff line i).1 hi
    exact ⟨name, args, ns, i, hline, hargs, rfl, (commandOf_eq_some_iff name ns i).1 hcommand⟩
  · rintro ⟨name, args, ns, i, hline, hargs, rfl, hrow⟩
    exact ⟨i, (parseLine_eq_some_iff line i).2
      ⟨name, args, ns, hline, hargs, (commandOf_eq_some_iff name ns i).2 hrow⟩, rfl⟩

theorem arguments_length {args : List (List Char)} {ns : List Int} (h : arguments args = some ns) :
    ns.length = args.length := by
  simpa using (congrArg List.length ((arguments_eq_some_iff args ns).1 h)).symm

theorem encodable_of_mem_arguments {args : List (List Char)} {ns : List Int} (h : arguments args = some ns) {n : Int}
    (hn : n ∈ ns) : Encodable n := by
  have hmem : some n ∈ args.map argument := by
    rw [(arguments_eq_some_iff args ns).1 h]
    exact List.mem_map_of_mem hn
  obtain ⟨t, -, ht⟩ := List.mem_map.1 hmem
  exact ((argument_eq_some_iff t n).1 ht).1

/-- A command with encodable arguments is well-formed. -/
theorem wellFormed_of_namesCommand {name : List Char} {ns : List Int} {i : Instr} (h : namesCommand name ns i)
    (hns : ∀ n ∈ ns, Encodable n) : i.wellFormed = true := by
  rcases h with ⟨-, x, y, rfl, rfl⟩ | ⟨-, x, y, ori, rfl, rfl⟩ | ⟨-, x0, y0, x1, y1, rfl, rfl⟩ | ⟨-, -, rfl⟩ |
    ⟨-, -, rfl⟩
  · exact (wellFormed_setPixel x y).2 ⟨hns x (by simp), hns y (by simp)⟩
  · exact (wellFormed_axisLine x y ori).2 ⟨⟨hns x (by simp), hns y (by simp)⟩, hns ori (by simp)⟩
  · exact (wellFormed_line x0 y0 x1 y1).2
      ⟨⟨⟨hns x0 (by simp), hns y0 (by simp)⟩, hns x1 (by simp)⟩, hns y1 (by simp)⟩
  · rfl
  · rfl

/-- Settles O57: a line that assembles names a command with encodable arguments, whose word decodes to it. -/
theorem assembledLinesAreCommands : Obligations.AssembledLinesAreCommands := by
  refine ⟨assemble_eq_some_iff, fun args ns h => ⟨arguments_length h, fun n => encodable_of_mem_arguments h⟩,
    fun line w h => ?_⟩
  obtain ⟨name, args, ns, i, -, hargs, rfl, hi⟩ := (assemble_eq_some_iff line w).1 h
  have hwf := wellFormed_of_namesCommand hi fun n => encodable_of_mem_arguments hargs
  exact ⟨i, hwf, decodeInvertsEncode i hwf⟩

end Sys2Proof.Machine

/-! Proofs of the statements of 40_pixel: FB_SET, FB_CLEARALL and SETPIXEL. -/

namespace Sys2Proof.Machine

/-! ## FB_SET -/

/-- A byte with the bit of a pixel set is not 0. -/
theorem or_bitMask_ne_zero (v : Byte) (k : BitNo) : v ||| bitMask k ≠ 0#8 := by
  intro h
  have hbit : (v ||| bitMask k).getLsbD k.val = true := by simp [bitMask_getLsbD]
  simp [h] at hbit

/-- Settles O19: the framebuffer is written once, at the translator's address. -/
theorem fbSetWritesOneCell : Obligations.FbSetWritesOneCell := by
  intro m x y
  refine ⟨(fbSet_eq_none_iff x y m).2, fun a ha => ?_⟩
  refine ⟨_, fbSet_of_translate m ha, rfl, rfl, ?_, or_bitMask_ne_zero _ _, fun c b hother => ?_⟩
  · rw [fbRead_write, if_pos ⟨rfl, rfl⟩]
  · rw [fbRead_write, if_neg hother]

/-! ## FB_CLEARALL -/

/-- Writing zero to a list of cells of one column. -/
theorem fbRead_zeroBanks (x : Column) (bs : List Bank) (m : CellStore) (c : Column) (b' : Bank) :
    fbRead (bs.foldl (fun m b => m.write x b 0#8) m) c b' = if c = x ∧ b' ∈ bs then 0#8 else fbRead m c b' := by
  induction bs generalizing m with
  | nil => simp
  | cons b bs ih =>
    rw [List.foldl_cons, ih, fbRead_write]
    by_cases hc : c = x <;> by_cases hb : b' = b <;> simp [hc, hb]

/-- Zeroing whole columns, one after another. -/
theorem fbRead_zeroWholeColumns (xs : List Column) (m : CellStore) (c : Column) (b : Bank) :
    fbRead (xs.foldl (fun m x => (List.finRange 6).foldl (fun m b => m.write x b 0#8) m) m) c b =
      if c ∈ xs then 0#8 else fbRead m c b := by
  induction xs generalizing m with
  | nil => simp
  | cons x xs ih =>
    rw [List.foldl_cons, ih, fbRead_zeroBanks]
    by_cases hc : c = x <;> simp [hc]

/-- FB_CLEARALL leaves every cell zero (R101). -/
theorem fbRead_fbClearAll (m : CellStore) (c : Column) (b : Bank) : fbRead (fbClearAll m) c b = 0#8 := by
  rw [fbClearAll, fbRead_zeroWholeColumns, if_pos (List.mem_finRange c)]

/-- Settles O20: both orders of writes reach every cell, with the same byte. -/
theorem clearAllZeroesEveryCell : Obligations.ClearAllZeroesEveryCell := fun m c b =>
  ⟨fbRead_fbClearAll m c b, (fbRead_clearBig m c b).trans (fbRead_fbClearAll m c b).symm⟩

/-! ## SETPIXEL -/

/-- The triplet of a plot carries the byte that its cell holds afterwards (R102). -/
theorem plotAct_writes {q : Point} {a : PixelAddr} (m : CellStore) (h : translate q.1 q.2 = some a) :
    (plotAct q m).2 = triplet a (fbRead (plotAct q m).1 a.column a.bank) := by
  rw [fbRead_plotAct m h, if_pos ⟨rfl, rfl⟩, plotAct_of_translate m h]

/-- SETPIXEL on a pixel of the display, its three writes completed by the transport: the framebuffer is that of one plot,
and the command ends with code 0 having sent the triplet of the new cell (R102). -/
theorem exec_setPixel_done {s : State} {x y : Int} {a : PixelAddr} (hs : s.stopped = false) (ha : translate x y = some a)
    (hallow : s.transport.allows 3) :
    ∃ t, exec (.setPixel x y) s = .next t ∧ t.fb = (plotAct (x, y) s.fb).1 ∧
      Ended 0 (triplet a (t.cell a.column a.bank)) s t ∧
      t.display = (triplet a (t.cell a.column a.bank)).foldl Display.take s.display := by
  have hv : inX x ∧ inY y := (translate_isSome_iff x y).1 (Option.isSome_of_eq_some ha)
  have hpts : pointsOf (.setPixel x y) = [(x, y)] := if_pos hv
  have hcode : resultCode (.setPixel x y) = 0 := if_pos (decide_eq_true hv)
  have hfb : (drawBig [(x, y)] s.fb).1 = (plotAct (x, y) s.fb).1 := by rw [drawBig_cons]; rfl
  have hws : (drawBig [(x, y)] s.fb).2 = triplet a (fbRead (plotAct (x, y) s.fb).1 a.column a.bank) := by
    rw [drawBig_cons, plotAct_writes (q := (x, y)) s.fb ha]; rfl
  have hexec := exec_draw_done (i := .setPixel x y) (by simp [clearsDisplay]) hs (by rw [hpts, hws]; exact hallow)
  rw [hpts, hcode, hfb, hws] at hexec
  refine ⟨_, hexec, respond_fb _ _, ?_, ?_⟩
  · rw [State.cell, respond_fb]
    exact ended_respond_doneState hs _ _ _
  · rw [State.cell, respond_fb, respond_display]
    rfl

/-- SETPIXEL off the display answers 1 and does nothing else (R102). -/
theorem exec_setPixel_offDisplay {x y : Int} (hv : ¬ (inX x ∧ inY y)) (s : State) :
    exec (.setPixel x y) s = .next (respond 1 s) := by
  have hpts : pointsOf (.setPixel x y) = [] := if_neg hv
  have hcode : resultCode (.setPixel x y) = 1 := if_neg (by simpa [validOperands] using hv)
  rw [exec_draw (by simp [clearsDisplay]), hpts, hcode]
  rfl

/-- Settles O21: the cells are those of the plot, and the triplet carries the new cell. -/
theorem setPixelSetsAndSends : Obligations.SetPixelSetsAndSends := by
  intro s x y a hrun ha hallow
  obtain ⟨t, hexec, hfb, hend, hdisplay⟩ := exec_setPixel_done hrun.stopped ha hallow
  have hcell : ∀ c b, t.cell c b = if c = a.column ∧ b = a.bank then s.cell c b ||| bitMask a.bit else s.cell c b := by
    intro c b
    rw [State.cell, hfb]
    exact fbRead_plotAct (q := (x, y)) s.fb ha c b
  refine ⟨t, hexec, ?_, fun c b hother => ?_, hend, hdisplay⟩
  · rw [hcell, if_pos ⟨rfl, rfl⟩]
  · rw [hcell, if_neg hother]

/-- Settles O22: on the display the one plot turns on its own pixel and no other; off it there is no plot. -/
theorem setPixelChangesOnePixel : Obligations.SetPixelChangesOnePixel := by
  refine ⟨fun s x y hrun hx hy hallow => ?_, fun s x y hrun hv => ?_⟩
  · obtain ⟨a, ha⟩ := translate_of_onDisplay ⟨hx, hy⟩
    obtain ⟨t, hexec, hfb, hend, -⟩ := exec_setPixel_done hrun.stopped ha hallow
    have hpixel : ∀ x' y', t.pixel x' y' = (s.pixel x' y' || decide ((x', y') = (x, y))) := by
      intro x' y'
      rw [State.pixel, hfb]
      exact fbPixel_plotAct (q := (x, y)) s.fb ha x' y'
    refine ⟨t, a, hexec, hend.rsp, hend.busy, ?_, ha, hend.trace, fun x' y' hother => ?_⟩
    · simp [hpixel]
    · simp [hpixel, hother]
  · refine ⟨_, exec_setPixel_offDisplay hv s, respond_rsp 1 hrun.stopped, fun c b => ?_⟩
    rw [State.cell, respond_fb, State.cell]

end Sys2Proof.Machine

/-! Proofs of the statements of 41_axis_line: the two rays of AXISLINE. -/

namespace Sys2Proof.Machine

/-! ## A drawing, triplet by triplet -/

/-- A byte of a drawing, bit by bit: each bit is its old pixel or a point drawn (R21, R23). -/
theorem getLsbD_fbRead_drawBig {ps : List Point} (h : ∀ q ∈ ps, onDisplay q) (m : CellStore) (c : Column) (b : Bank)
    (j : BitNo) :
    (fbRead (drawBig ps m).1 c b).getLsbD j.val =
      (fbPixel m c.val (8 * b.val + j.val) || decide (((c.val : Int), (8 * b.val + j.val : Int)) ∈ ps)) := by
  rw [← fbPixel_drawBig h]
  exact (fbPixel_of_translate _ (translate_surjective ⟨c, b, j⟩)).symm

/-- A cell none of whose pixels is drawn is unchanged (R22). -/
theorem fbRead_drawBig_of_notMem {ps : List Point} (m : CellStore) {c : Column} {b : Bank}
    (h : ∀ k : BitNo, ((c.val : Int), (8 * b.val + k.val : Int)) ∉ ps) : fbRead (drawBig ps m).1 c b = fbRead m c b := by
  refine fbRead_drawBig m c b fun q hq a ha => ?_
  rintro ⟨rfl, rfl⟩
  obtain ⟨hx, hy⟩ := (translate_eq_some_iff q.1 q.2 a).1 ha
  exact h a.bit (hx ▸ hy ▸ hq)

/-- The triplet of the point drawn at place `i` stands at place `3 i` of the writes, and carries the cell as the points up to
this one leave it (R103). -/
theorem drawBig_triplet {ps : List Point} (h : ∀ q ∈ ps, onDisplay q) {i : Nat} {q : Point} {a : PixelAddr}
    (hq : ps[i]? = some q) (ha : translate q.1 q.2 = some a) (m : CellStore) :
    ((drawBig ps m).2.drop (3 * i)).take 3 = triplet a (fbRead (drawBig (ps.take (i + 1)) m).1 a.column a.bank) := by
  induction ps generalizing i m with
  | nil => simp at hq
  | cons p ps ih =>
    obtain ⟨a', ha'⟩ := translate_of_onDisplay (h p List.mem_cons_self)
    rw [drawBig_cons, List.take_succ_cons, drawBig_cons, plotAct_writes m ha']
    cases i with
    | zero =>
      obtain rfl : p = q := by simpa using hq
      obtain rfl : a' = a := Option.some.inj (ha'.symm.trans ha)
      rfl
    | succ i => exact ih (fun r hr => h r (List.mem_cons_of_mem _ hr)) hq _

/-- A drawing command with valid operands that the transport completes: it ends with code 0 having sent its drawing's
writes, and framebuffer and display are those of the drawing (R6). -/
theorem exec_validDraw_done {i : Instr} (hi : ¬ clearsDisplay i) (hv : validOperands i = true) {s : State} (hrun : s.running)
    (hallow : s.transport.allows (3 * (pointsOf i).length)) :
    ∃ t, exec i s = .next t ∧ t.fb = (drawBig (pointsOf i) s.fb).1 ∧ Ended 0 (drawBig (pointsOf i) s.fb).2 s t ∧
      t.display = (drawBig (pointsOf i) s.fb).2.foldl Display.take s.display := by
  have hcode : resultCode i = 0 := if_pos hv
  rw [← length_drawBig (pointsOf_onDisplay i) s.fb] at hallow
  have hexec := exec_draw_done hi hrun.stopped hallow
  rw [hcode] at hexec
  exact ⟨_, hexec, respond_fb _ _, ended_respond_doneState hrun.stopped _ _ _, respond_display _ _⟩

/-! ## The sweeps, point by point -/

/-- The first values of a loop range, up to one of its values, are the range that ends there (R11). -/
theorem take_inclusive {a b v : Int} (ha : a ≤ v) (hb : v ≤ b) :
    (inclusive a b).take ((v - a).toNat + 1) = inclusive a v := by
  have hlen : min ((v - a).toNat + 1) (b - a + 1).toNat = (v - a + 1).toNat := by omega
  rw [inclusive, ← List.map_take, List.take_range, hlen, inclusive]

/-- A value of a loop range stands at its distance from the start. -/
theorem getElem?_inclusive_sub {a b v : Int} (ha : a ≤ v) (hb : v ≤ b) :
    (inclusive a b)[(v - a).toNat]? = some v := by
  rw [getElem?_inclusive (by omega), Int.toNat_of_nonneg (by omega), add_sub_cancel]

theorem length_hsweep (x y : Int) : (hsweep x y).length = (84 - x).toNat := by
  rw [hsweep, List.length_map, length_inclusive]; omega

theorem length_vsweep (x y : Int) : (vsweep x y).length = (48 - y).toNat := by
  rw [vsweep, List.length_map, length_inclusive]; omega

/-- The points of a horizontal sweep up to column `cx` (R112). -/
theorem mem_take_hsweep {x y cx : Int} (hx : x ≤ cx) (hcx : cx ≤ 83) {q : Point} :
    q ∈ (hsweep x y).take ((cx - x).toNat + 1) ↔ (x ≤ q.1 ∧ q.1 ≤ cx) ∧ q.2 = y := by
  obtain ⟨u, v⟩ := q
  rw [hsweep, ← List.map_take, take_inclusive hx hcx]
  simp [mem_inclusive, and_assoc, eq_comm]

/-- The points of a vertical sweep up to row `cy` (R114). -/
theorem mem_take_vsweep {x y cy : Int} (hy : y ≤ cy) (hcy : cy ≤ 47) {q : Point} :
    q ∈ (vsweep x y).take ((cy - y).toNat + 1) ↔ q.1 = x ∧ (y ≤ q.2 ∧ q.2 ≤ cy) := by
  obtain ⟨u, v⟩ := q
  rw [vsweep, ← List.map_take, take_inclusive hy hcy]
  simp [mem_inclusive, and_comm, eq_comm]

theorem getElem?_hsweep {x y cx : Int} (hx : x ≤ cx) (hcx : cx ≤ 83) : (hsweep x y)[(cx - x).toNat]? = some (cx, y) := by
  rw [hsweep, List.getElem?_map, getElem?_inclusive_sub hx hcx, Option.map_some]

theorem getElem?_vsweep {x y cy : Int} (hy : y ≤ cy) (hcy : cy ≤ 47) : (vsweep x y)[(cy - y).toNat]? = some (x, cy) := by
  rw [vsweep, List.getElem?_map, getElem?_inclusive_sub hy hcy, Option.map_some]

/-! ## AXISLINE -/

theorem pointsOf_axisLine_horizontal {x y : Int} (hx : inX x) (hy : inY y) : pointsOf (.axisLine x y 0) = hsweep x y := by
  rw [pointsOf, axisPoints, if_pos ⟨hx, hy⟩]; rfl

theorem pointsOf_axisLine_vertical {x y : Int} (hx : inX x) (hy : inY y) : pointsOf (.axisLine x y 1) = vsweep x y := by
  rw [pointsOf, axisPoints, if_pos ⟨hx, hy⟩]; rfl

/-- Every later point of a horizontal sweep lies in another column, so the byte sent for a column is the one that its cell
keeps (R112). -/
theorem fbRead_take_hsweep {x y : Int} (hon : ∀ q ∈ hsweep x y, onDisplay q) (m : CellStore) {c : Column} (b : Bank)
    (hc : x ≤ (c.val : Int)) :
    fbRead (drawBig ((hsweep x y).take (((c.val : Int) - x).toNat + 1)) m).1 c b = fbRead (drawBig (hsweep x y) m).1 c b := by
  have hc83 : (c.val : Int) ≤ 83 := by omega
  refine BitVec.eq_of_getLsbD_eq fun j hj => ?_
  rw [getLsbD_fbRead_drawBig (fun q hq => hon q (List.mem_of_mem_take hq)) m c b ⟨j, hj⟩,
    getLsbD_fbRead_drawBig hon m c b ⟨j, hj⟩]
  congr 1
  rw [decide_eq_decide, mem_take_hsweep hc hc83, mem_hsweep]
  simp [hc83]

/-- Settles O25: the pixels are those of the sweep, and the triplet of a column is the one at the column's place. -/
theorem horizontalRayReachesRightEdge : Obligations.HorizontalRayReachesRightEdge := by
  intro s x y hrun hx hy hallow
  have hpts := pointsOf_axisLine_horizontal hx hy
  have hon : ∀ q ∈ hsweep x y, onDisplay q := hpts ▸ pointsOf_onDisplay _
  obtain ⟨t, hexec, hfb, hend, hdisplay⟩ := exec_validDraw_done (i := .axisLine x y 0) (by simp [clearsDisplay])
    (decide_eq_true ⟨hx, hy, .inl rfl⟩) hrun (by rwa [hpts, length_hsweep])
  rw [hpts] at hfb hend hdisplay
  refine ⟨t, hexec, fun x' y' hx' _ => ?pixels, fun c b hother => ?cells, _, hend, ?count, hdisplay,
    fun c b hc hb => ?triplets⟩
  case pixels =>
    rw [State.pixel, hfb, fbPixel_drawBig hon, Bool.or_eq_true, decide_eq_true_iff, mem_hsweep, State.pixel]
    have hx83 : x' ≤ 83 := by omega
    simp [hx83, and_comm]
  case cells =>
    rw [State.cell, hfb]
    refine fbRead_drawBig_of_notMem _ fun k => ?_
    rw [mem_hsweep]
    omega
  case count => rw [length_drawBig hon, length_hsweep]
  case triplets =>
    have hcx : (c.val : Int) ≤ 83 := by omega
    obtain ⟨k, ha⟩ : ∃ k : BitNo, translate c.val y = some ⟨c, b, k⟩ :=
      ⟨⟨(y % 8).toNat, by omega⟩, (translate_eq_some_iff _ _ _).2 ⟨rfl, by simp only; omega⟩⟩
    rw [drawBig_triplet hon (getElem?_hsweep hc hcx) ha, fbRead_take_hsweep hon s.fb b hc, State.cell, hfb]
    rfl

/-- Settles O26: the pixels are those of the sweep, and the triplet of a row carries its cell after the rows so far. -/
theorem verticalRayReachesBottomEdge : Obligations.VerticalRayReachesBottomEdge := by
  intro s x y hrun hx hy hallow
  have hpts := pointsOf_axisLine_vertical hx hy
  have hon : ∀ q ∈ vsweep x y, onDisplay q := hpts ▸ pointsOf_onDisplay _
  obtain ⟨t, hexec, hfb, hend, hdisplay⟩ := exec_validDraw_done (i := .axisLine x y 1) (by simp [clearsDisplay])
    (decide_eq_true ⟨hx, hy, .inr rfl⟩) hrun (by rwa [hpts, length_vsweep])
  rw [hpts] at hfb hend hdisplay
  refine ⟨t, hexec, fun x' y' _ hy' => ?pixels, fun c b hother => ?cells, _, hend, ?count, hdisplay,
    fun cy a hcy ha => ?triplets⟩
  case pixels =>
    rw [State.pixel, hfb, fbPixel_drawBig hon, Bool.or_eq_true, decide_eq_true_iff, mem_vsweep, State.pixel]
    have hy47 : y' ≤ 47 := by omega
    simp [hy47]
  case cells =>
    rw [State.cell, hfb]
    refine fbRead_drawBig_of_notMem _ fun k => ?_
    rw [mem_vsweep]
    omega
  case count => rw [length_drawBig hon, length_vsweep]
  case triplets =>
    obtain ⟨hcol, hrow⟩ := (translate_eq_some_iff x cy a).1 ha
    have hcy47 : cy ≤ 47 := by omega
    refine ⟨_, drawBig_triplet hon (getElem?_vsweep hcy hcy47) ha s.fb, fun j => ?_⟩
    rw [getLsbD_fbRead_drawBig (fun q hq => hon q (List.mem_of_mem_take hq)), State.pixel, ← hcol]
    congr 1
    rw [decide_eq_decide, mem_take_vsweep hcy hcy47]
    simp

end Sys2Proof.Machine

/-! Proofs of the statements of 42_line: the points of a LINE, their number and order, the box, the error terms. -/

namespace Sys2Proof.Machine

/-! ## The endpoints in either order -/

theorem shallow_swap (x0 y0 x1 y1 : Int) : shallow x0 y0 x1 y1 ↔ shallow x1 y1 x0 y0 := by unfold shallow; omega

/-- The endpoint ordering of R123 makes the passes depend on the unordered pair only (R129). -/
theorem linePasses_swap (x0 y0 x1 y1 : Int) : linePasses x0 y0 x1 y1 = linePasses x1 y1 x0 y0 := by
  unfold linePasses
  by_cases hs : shallow x0 y0 x1 y1
  · have hne : x0 ≠ x1 := by unfold shallow at hs; omega
    rw [if_pos hs, if_pos ((shallow_swap ..).1 hs)]
    rcases lt_or_gt_of_ne hne with h | h
    · rw [if_neg h.not_gt, if_pos h]
    · rw [if_pos h, if_neg h.not_gt]
  · rw [if_neg hs, if_neg (mt (shallow_swap ..).2 hs)]
    rcases lt_trichotomy y0 y1 with h | rfl | h
    · rw [if_neg h.not_gt, if_pos h]
    · obtain rfl : x0 = x1 := by unfold shallow at hs; omega
      rfl
    · rw [if_pos h, if_neg h.not_gt]

theorem linePoints_swap (x0 y0 x1 y1 : Int) : linePoints x0 y0 x1 y1 = linePoints x1 y1 x0 y0 := by
  unfold linePoints
  rw [linePasses_swap]
  exact if_congr (by tauto) rfl rfl

theorem linePasses_of_low {xa ya xb yb : Int} (hx : xa < xb) (hy : (yb - ya).natAbs < (xb - xa).natAbs) :
    linePasses xa ya xb yb = low xa ya xb yb := by
  rw [linePasses, if_pos hy, if_neg hx.not_gt]

theorem linePasses_of_high {xa ya xb yb : Int} (hy : ya ≤ yb) (hx : (xb - xa).natAbs ≤ (yb - ya).natAbs) :
    linePasses xa ya xb yb = high xa ya xb yb := by
  rw [linePasses, if_neg hx.not_gt, if_neg hy.not_gt]

theorem linePasses_point (x y : Int) : linePasses x y x y = [⟨x, y, 0⟩] := by
  rw [linePasses_of_high le_rfl (by omega), high_single]

/-- What holds of LOW, of HIGH and of the single point holds of every line, when it does not depend on the endpoints' order
(R122, R123). -/
theorem line_cases {motive : Int → Int → Int → Int → Prop}
    (swap : ∀ x0 y0 x1 y1, motive x1 y1 x0 y0 → motive x0 y0 x1 y1)
    (low : ∀ xa ya xb yb, xa < xb → (yb - ya).natAbs < (xb - xa).natAbs → motive xa ya xb yb)
    (high : ∀ xa ya xb yb, ya < yb → (xb - xa).natAbs ≤ (yb - ya).natAbs → motive xa ya xb yb)
    (point : ∀ x y, motive x y x y) (x0 y0 x1 y1 : Int) : motive x0 y0 x1 y1 := by
  by_cases hs : shallow x0 y0 x1 y1
  · have hne : x0 ≠ x1 := by unfold shallow at hs; omega
    rcases lt_or_gt_of_ne hne with h | h
    · exact low _ _ _ _ h hs
    · exact swap _ _ _ _ (low _ _ _ _ h ((shallow_swap ..).1 hs))
  · unfold shallow at hs
    rcases lt_trichotomy y0 y1 with h | rfl | h
    · exact high _ _ _ _ h (by omega)
    · obtain rfl : x0 = x1 := by omega
      exact point _ _
    · exact swap _ _ _ _ (high _ _ _ _ h (by omega))

/-- Settles O28: the passes are those of the unordered pair, and exec runs nothing else. -/
theorem lineIgnoresEndpointOrder : Obligations.LineIgnoresEndpointOrder := by
  refine fun x0 y0 x1 y1 => ⟨linePasses_swap .., fun s => ?_⟩
  simp only [exec, execLine, linePoints_swap x0 y0 x1 y1]

/-! ## The points of a line in closed form -/

@[simp] theorem length_passPoints (l : List Pass) : (passPoints l).length = l.length := List.length_map _

theorem mem_passPoints {l : List Pass} {q : Point} : q ∈ passPoints l ↔ ∃ p ∈ l, p.x = q.1 ∧ p.y = q.2 := by
  simp [passPoints, Prod.ext_iff]

/-- HIGH plots the points of LOW with the axes exchanged (R126). -/
theorem passPoints_high (xa ya xb yb : Int) :
    passPoints (high xa ya xb yb) = (passPoints (low ya xa yb xb)).map Prod.swap := by
  simp [high_eq_transpose, passPoints, Pass.transpose]

/-- The point LOW plots at iteration `i` (R136). -/
def lowPoint (xa ya xb yb i : Int) : Point :=
  (xa + i, ya + (if yb - ya < 0 then -1 else 1) * roundedStep (xb - xa) ((yb - ya).natAbs : Int) i)

theorem lowPoint_zero {xa xb : Int} (hx : xa < xb) (ya yb : Int) : lowPoint xa ya xb yb 0 = (xa, ya) := by
  simp [lowPoint, roundedStep_zero (sub_pos.2 hx)]

/-- LOW ends exactly on the second endpoint (R130). -/
theorem lowPoint_last {xa xb : Int} (hx : xa < xb) (ya yb : Int) : lowPoint xa ya xb yb (xb - xa) = (xb, yb) := by
  rw [lowPoint, roundedStep_self (sub_pos.2 hx)]
  split_ifs <;> ext <;> simp only <;> omega

theorem passPoints_low {xa ya xb yb : Int} (hx : xa < xb) (hy : (yb - ya).natAbs ≤ (xb - xa).natAbs) :
    passPoints (low xa ya xb yb) = (inclusive 0 (xb - xa)).map (lowPoint xa ya xb yb) := by
  refine List.ext_getElem? fun i => ?_
  rw [passPoints, List.getElem?_map, List.getElem?_map]
  by_cases hi : (i : Int) ≤ xb - xa
  · rw [getElem?_low hx hy i hi, getElem?_inclusive (by omega), zero_add]
    rfl
  · rw [List.getElem?_eq_none (by rw [length_low]; omega), List.getElem?_eq_none (by rw [length_inclusive]; omega)]
    rfl

/-! ## Start, end, and no point twice -/

theorem head?_inclusive {a b : Int} (h : a ≤ b) : (inclusive a b).head? = some a := by
  rw [List.head?_eq_getElem?, getElem?_inclusive (by omega)]; simp

theorem getLast?_inclusive {a b : Int} (h : a ≤ b) : (inclusive a b).getLast? = some b := by
  rw [List.getLast?_eq_getElem?, length_inclusive, getElem?_inclusive (by omega), Option.some.injEq]; omega

theorem nodup_inclusive (a b : Int) : (inclusive a b).Nodup :=
  List.nodup_range.map fun i j (h : a + (i : Int) = a + (j : Int)) => by omega

/-- A list of points that runs from `a` to `b` and meets no point twice. -/
structure RunsFromTo (a b : Point) (ps : List Point) : Prop where
  head  : ps.head? = some a
  last  : ps.getLast? = some b
  nodup : ps.Nodup

theorem RunsFromTo.swap {a b : Point} {ps : List Point} (h : RunsFromTo a b ps) :
    RunsFromTo a.swap b.swap (ps.map Prod.swap) where
  head := by rw [List.head?_map, h.head, Option.map_some]
  last := by rw [List.getLast?_map, h.last, Option.map_some]
  nodup := h.nodup.map Prod.swap_injective

/-- LOW runs from its first to its second endpoint; the driving coordinate tells its points apart (R130). -/
theorem runsFromTo_low {xa ya xb yb : Int} (hx : xa < xb) (hy : (yb - ya).natAbs ≤ (xb - xa).natAbs) :
    RunsFromTo (xa, ya) (xb, yb) (passPoints (low xa ya xb yb)) := by
  have hdx : 0 ≤ xb - xa := by omega
  rw [passPoints_low hx hy]
  refine ⟨?_, ?_, (nodup_inclusive _ _).map fun i j h => ?_⟩
  · rw [List.head?_map, head?_inclusive hdx, Option.map_some, lowPoint_zero hx]
  · rw [List.getLast?_map, getLast?_inclusive hdx, Option.map_some, lowPoint_last hx]
  · exact add_left_cancel (congrArg Prod.fst h)

theorem runsFromTo_high {xa ya xb yb : Int} (hy : ya < yb) (hx : (xb - xa).natAbs ≤ (yb - ya).natAbs) :
    RunsFromTo (xa, ya) (xb, yb) (passPoints (high xa ya xb yb)) :=
  passPoints_high xa ya xb yb ▸ (runsFromTo_low hy hx).swap

/-- A line runs from one endpoint to the other (R130). -/
theorem runsFromTo_linePasses (x0 y0 x1 y1 : Int) :
    RunsFromTo (x0, y0) (x1, y1) (passPoints (linePasses x0 y0 x1 y1)) ∨
      RunsFromTo (x1, y1) (x0, y0) (passPoints (linePasses x0 y0 x1 y1)) := by
  induction x0, y0, x1, y1 using line_cases with
  | swap x0 y0 x1 y1 ih => rw [linePasses_swap]; exact ih.symm
  | low xa ya xb yb hx hy => rw [linePasses_of_low hx hy]; exact .inl (runsFromTo_low hx hy.le)
  | high xa ya xb yb hy hx => rw [linePasses_of_high hy.le hx]; exact .inl (runsFromTo_high hy hx)
  | point x y => rw [linePasses_point]; exact .inl ⟨rfl, rfl, List.nodup_singleton _⟩

/-! ## LINE with valid endpoints -/

section valid

variable {x0 y0 x1 y1 : Int} (hx0 : inX x0) (hy0 : inY y0) (hx1 : inX x1) (hy1 : inY y1)
include hx0 hy0 hx1 hy1

theorem linePoints_of_valid : linePoints x0 y0 x1 y1 = some (passPoints (linePasses x0 y0 x1 y1)) :=
  if_pos ⟨hx0, hy0, hx1, hy1⟩

theorem pointsOf_line_of_valid : pointsOf (.line x0 y0 x1 y1) = passPoints (linePasses x0 y0 x1 y1) := by
  rw [pointsOf, linePoints_of_valid hx0 hy0 hx1 hy1, Option.getD_some]

/-- A valid LINE whose writes the transport completes: it draws the points of its passes and ends with code 0 (R121, R130). -/
theorem exec_validLine_done {s : State} (hrun : s.running)
    (hallow : s.transport.allows (3 * (passPoints (linePasses x0 y0 x1 y1)).length)) :
    ∃ t ws, exec (.line x0 y0 x1 y1) s = .next t ∧ t.fb = (drawBig (passPoints (linePasses x0 y0 x1 y1)) s.fb).1 ∧
      Ended 0 ws s t ∧ ws.length = 3 * (passPoints (linePasses x0 y0 x1 y1)).length ∧
      t.display = ws.foldl Display.take s.display := by
  rw [← pointsOf_line_of_valid hx0 hy0 hx1 hy1] at hallow ⊢
  obtain ⟨t, hexec, hfb, hend, hdisplay⟩ := exec_validDraw_done (i := .line x0 y0 x1 y1) (by simp [clearsDisplay])
    (decide_eq_true ⟨hx0, hy0, hx1, hy1⟩) hrun hallow
  exact ⟨t, _, hexec, hfb, hend, length_drawBig (pointsOf_onDisplay _) _, hdisplay⟩

end valid

/-- Settles O27: the LINE is a drawing of the points of its passes. -/
theorem lineDrawsItsPoints : Obligations.LineDrawsItsPoints := by
  intro s x0 y0 x1 y1 hrun hx0 hy0 hx1 hy1 hallow
  rw [← length_linePasses, ← length_passPoints] at hallow ⊢
  have hon := linePoints_onDisplay (linePoints_of_valid hx0 hy0 hx1 hy1)
  obtain ⟨t, ws, hexec, hfb, hend, hcount, hdisplay⟩ := exec_validLine_done hx0 hy0 hx1 hy1 hrun hallow
  refine ⟨t, hexec, fun x y _ _ => ?pixels, fun c b hother => ?cells, ws, hend, hcount, hdisplay⟩
  case pixels =>
    rw [State.pixel, hfb, fbPixel_drawBig hon, Bool.or_eq_true, decide_eq_true_iff, mem_passPoints, State.pixel]
  case cells =>
    rw [State.cell, hfb, State.cell]
    refine fbRead_drawBig _ c b fun q hq => ?_
    obtain ⟨p, hp, rfl⟩ := List.mem_map.1 hq
    exact hother p hp

/-- Settles O29: one point for each value of the driving coordinate. -/
theorem linePointCount : Obligations.LinePointCount := by
  intro x0 y0 x1 y1 hx0 hy0 hx1 hy1
  have hlen : (passPoints (linePasses x0 y0 x1 y1)).length = max (x1 - x0).natAbs (y1 - y0).natAbs + 1 := by
    rw [length_passPoints, length_linePasses]
  have hruns := runsFromTo_linePasses x0 y0 x1 y1
  refine ⟨_, linePoints_of_valid hx0 hy0 hx1 hy1, hlen, by omega, by omega, ?nodup, ?ends, fun s hrun hallow => ?writes⟩
  case nodup => exact hruns.elim (·.nodup) (·.nodup)
  case ends => exact hruns.imp (fun h => ⟨h.head, h.last⟩) (fun h => ⟨h.head, h.last⟩)
  case writes =>
    obtain ⟨t, ws, hexec, -, hend, hcount, -⟩ := exec_validLine_done hx0 hy0 hx1 hy1 hrun hallow
    exact ⟨t, ws, hexec, hend, hcount⟩

/-! ## The chain -/

/-- From one pass of the loop to the next the driving coordinate grows by 1, the other by 0 or by the step (R124, R131). -/
theorem lowLoop_chain {dx dy ystep x y e : Int} {n k : Nat} {p q : Pass}
    (hp : (lowLoop dx dy ystep n x y e)[k]? = some p) (hq : (lowLoop dx dy ystep n x y e)[k + 1]? = some q) :
    q.x = p.x + 1 ∧ (q.y = p.y ∨ q.y = p.y + ystep) := by
  induction n generalizing x y e k with
  | zero => simp [lowLoop] at hp
  | succ n ih =>
    rw [lowLoop, List.getElem?_cons_succ] at hq
    cases k with
    | zero =>
      obtain rfl : ⟨x, y, e⟩ = p := by simpa [lowLoop] using hp
      cases n with
      | zero => simp [lowLoop] at hq
      | succ n =>
        split_ifs at hq <;> obtain rfl := by simpa [lowLoop] using hq
        · exact ⟨rfl, .inr rfl⟩
        · exact ⟨rfl, .inl rfl⟩
    | succ k =>
      rw [lowLoop, List.getElem?_cons_succ] at hp
      split_ifs at hp hq
      · exact ih hp hq
      · exact ih hp hq

theorem low_chain {xa ya xb yb : Int} {k : Nat} {p q : Pass} (hp : (low xa ya xb yb)[k]? = some p)
    (hq : (low xa ya xb yb)[k + 1]? = some q) :
    q.x = p.x + 1 ∧ (q.y = p.y ∨ q.y = p.y + if yb - ya < 0 then -1 else 1) := lowLoop_chain hp hq

theorem high_chain {xa ya xb yb : Int} {k : Nat} {p q : Pass} (hp : (high xa ya xb yb)[k]? = some p)
    (hq : (high xa ya xb yb)[k + 1]? = some q) :
    q.y = p.y + 1 ∧ (q.x = p.x ∨ q.x = p.x + if xb - xa < 0 then -1 else 1) := by
  rw [high_eq_transpose, List.getElem?_map, Option.map_eq_some_iff] at hp hq
  obtain ⟨p', hp', rfl⟩ := hp
  obtain ⟨q', hq', rfl⟩ := hq
  exact low_chain hp' hq'

theorem unitStep_eq (v : Int) : (if v < 0 then (-1 : Int) else 1) = 1 ∨ (if v < 0 then (-1 : Int) else 1) = -1 := by
  split_ifs
  · exact .inr rfl
  · exact .inl rfl

/-- Settles O30: the fixed step is the sign of the difference on the other axis. -/
theorem lineIsMonotoneChain : Obligations.LineIsMonotoneChain := by
  intro x0 y0 x1 y1
  induction x0, y0, x1, y1 using line_cases with
  | swap x0 y0 x1 y1 ih => simpa only [linePasses_swap x0 y0 x1 y1, shallow_swap x0 y0 x1 y1] using ih
  | low xa ya xb yb hx hy =>
    refine ⟨_, unitStep_eq (yb - ya), fun k p q hp hq => ?_⟩
    rw [linePasses_of_low hx hy] at hp hq
    rw [if_pos hy]
    exact low_chain hp hq
  | high xa ya xb yb hy hx =>
    refine ⟨_, unitStep_eq (xb - xa), fun k p q hp hq => ?_⟩
    rw [linePasses_of_high hy.le hx] at hp hq
    rw [if_neg hx.not_gt]
    exact high_chain hp hq
  | point x y =>
    refine ⟨1, .inl rfl, fun k p q _ hq => ?_⟩
    simp [linePasses_point] at hq

/-! ## The box -/

/-- Settles O31: the box lemma of the rasterizers, and that no command changes FAULT. -/
theorem linePointsStayInBox : Obligations.LinePointsStayInBox := by
  refine ⟨fun x0 y0 x1 y1 p hp => ?box, fun x0 y0 x1 y1 p hx0 hy0 hx1 hy1 hp => ?display, fun x0 y0 x1 y1 s t hs ht => ?fault⟩
  case box =>
    obtain ⟨⟨hxl, hxr⟩, hyl, hyr⟩ := mem_linePasses_between hp
    exact ⟨hxl, hxr, hyl, hyr⟩
  case display =>
    exact onDisplay_of_between (a := (x0, y0)) (b := (x1, y1)) ⟨hx0, hy0⟩ ⟨hx1, hy1⟩ (mem_linePasses_between hp)
  case fault =>
    obtain ⟨t', ht', -, -, -, hfault, -⟩ := exec_control (.line x0 y0 x1 y1) s
    obtain rfl : t' = t := Host.Outcome.next.inj (ht'.symm.trans ht)
    exact hfault.trans hs

/-! ## The error term -/

/-- The error term tested at iteration `i`, for the differences `p` on the driving axis and `q` on the other (R136). -/
def errorTerm (p q i : Int) : Int := 2 * q * (i + 1) - p - 2 * p * roundedStep p q i

theorem e_of_mem_low {xa ya xb yb : Int} (hx : xa < xb) (hy : (yb - ya).natAbs ≤ (xb - xa).natAbs) {p : Pass}
    (hp : p ∈ low xa ya xb yb) : ∃ i, p.e = errorTerm (xb - xa) ((yb - ya).natAbs : Int) i := by
  obtain ⟨i, hi, hpi⟩ := List.mem_iff_getElem.1 hp
  have hle : (i : Int) ≤ xb - xa := by rw [length_low] at hi; omega
  have hget := getElem?_low hx hy i hle
  rw [List.getElem?_eq_getElem hi, hpi, Option.some.injEq] at hget
  exact ⟨i, congrArg Pass.e hget⟩

theorem e_of_mem_high {xa ya xb yb : Int} (hy : ya < yb) (hx : (xb - xa).natAbs ≤ (yb - ya).natAbs) {p : Pass}
    (hp : p ∈ high xa ya xb yb) : ∃ i, p.e = errorTerm (yb - ya) ((xb - xa).natAbs : Int) i := by
  rw [high_eq_transpose, List.mem_map] at hp
  obtain ⟨p', hp', rfl⟩ := hp
  exact e_of_mem_low (p := p') hy hx hp'

/-- On an axis the rounded quotient never grows (R128). -/
theorem roundedStep_axis {p : Int} (hp : 0 < p) (i : Int) : roundedStep p 0 i = 0 := by
  rw [roundedStep_eq_iff hp]; constructor <;> linarith

/-- On an exact diagonal it grows at every iteration (R128). -/
theorem roundedStep_diagonal {p : Int} (hp : 0 < p) (i : Int) : roundedStep p p i = i := by
  rw [roundedStep_eq_iff hp]; constructor <;> linarith

theorem errorTerm_axis {p : Int} (hp : 0 < p) (i : Int) : errorTerm p 0 i = -p := by
  rw [errorTerm, roundedStep_axis hp]; ring

theorem errorTerm_diagonal {p : Int} (hp : 0 < p) (i : Int) : errorTerm p p i = p := by
  rw [errorTerm, roundedStep_diagonal hp]; ring

/-- What a quotient to the nearest integer leaves, an exact half rounded down (R136). -/
theorem roundedStep_remainder {p q i : Int} (hp : 0 < p) :
    -p < 2 * (i * q - p * roundedStep p q i) ∧ 2 * (i * q - p * roundedStep p q i) ≤ p := by
  obtain ⟨hlo, hhi⟩ := (roundedStep_eq_iff hp).1 (rfl : roundedStep p q i = roundedStep p q i)
  constructor <;> linarith

theorem errorTerm_bounds {p q i : Int} (hp : 0 < p) : 2 * q - 2 * p < errorTerm p q i ∧ errorTerm p q i ≤ 2 * q := by
  obtain ⟨hlo, hhi⟩ := roundedStep_remainder (q := q) (i := i) hp
  unfold errorTerm
  constructor <;> linarith

/-- The error term is even or odd as the difference on the driving axis is (R124). -/
theorem even_errorTerm_add (p q i : Int) : 2 ∣ errorTerm p q i + p :=
  ⟨q * (i + 1) - p * roundedStep p q i, by rw [errorTerm]; ring⟩

/-- The low-slope range of R133; an axis line keeps `E = -dx`, so the least value comes with a slope of at least 1. -/
theorem errorTerm_low_range {p q : Int} (i : Int) (h0 : 0 ≤ q) (hqp : q < p) (hp : p ≤ 83) (hq : q ≤ 47) :
    -163 ≤ errorTerm p q i ∧ errorTerm p q i ≤ 94 := by
  rcases eq_or_lt_of_le h0 with rfl | hpos
  · rw [errorTerm_axis hqp]; omega
  · have := errorTerm_bounds (q := q) (i := i) (h0.trans_lt hqp)
    omega

/-- The high-slope range of R133; axis and diagonal keep one value, and below the diagonal parity excludes 92. -/
theorem errorTerm_high_range {p q : Int} (i : Int) (hp0 : 0 < p) (h0 : 0 ≤ q) (hqp : q ≤ p) (hp : p ≤ 47) :
    -91 ≤ errorTerm p q i ∧ errorTerm p q i ≤ 91 := by
  rcases eq_or_lt_of_le h0 with rfl | hpos
  · rw [errorTerm_axis hp0]; omega
  rcases eq_or_lt_of_le hqp with rfl | hlt
  · rw [errorTerm_diagonal hp0]; omega
  · have hbounds := errorTerm_bounds (q := q) (i := i) hp0
    have heven := even_errorTerm_add p q i
    omega

/-- Settles O33: the ranges of the closed form's error terms. -/
theorem errorTermRange : Obligations.ErrorTermRange := by
  intro x0 y0 x1 y1
  induction x0, y0, x1, y1 using line_cases with
  | swap x0 y0 x1 y1 ih =>
    intro p hx0 hy0 hx1 hy1 hp
    rw [linePasses_swap] at hp
    simpa only [shallow_swap x0 y0 x1 y1] using ih p hx1 hy1 hx0 hy0 hp
  | low xa ya xb yb hx hy =>
    intro p hxa hya hxb hyb hp
    rw [linePasses_of_low hx hy] at hp
    obtain ⟨i, he⟩ := e_of_mem_low hx hy.le hp
    rw [if_pos hy, he]
    exact errorTerm_low_range i (by omega) (by omega) (by omega) (by omega)
  | high xa ya xb yb hy hx =>
    intro p hxa hya hxb hyb hp
    rw [linePasses_of_high hy.le hx] at hp
    obtain ⟨i, he⟩ := e_of_mem_high hy hx hp
    rw [if_neg hx.not_gt, he]
    exact errorTerm_high_range i (by omega) (by omega) (by omega) (by omega)
  | point x y =>
    intro p _ _ _ _ hp
    have hsteep : ¬ shallow x y x y := by unfold shallow; omega
    have he : p.e = 0 := by rw [linePasses_point, List.mem_singleton] at hp; rw [hp]
    rw [if_neg hsteep, he]
    decide

/-! ## The closed form -/

/-- Settles O32: the loops follow the rounded quotient, which is the nearest integer. -/
theorem rasterizersClosedForm : Obligations.RasterizersClosedForm := by
  refine ⟨fun xa ya xb yb hx hy i hi => ?low, fun xa ya xb yb hy hx i hi => ?high, fun p q hp h0 hqp => ?quotient,
    fun x y => ?point, fun x0 y0 x1 y1 => ?unordered⟩
  case low => rw [Int.abs_eq_natAbs]; exact getElem?_low hx hy.le i hi
  case high => rw [Int.abs_eq_natAbs]; exact getElem?_high hy hx i hi
  case quotient =>
    refine ⟨roundedStep_zero hp, roundedStep_self hp, fun i => ⟨?_, roundedStep_remainder hp⟩⟩
    rw [roundedStep_succ hp h0 hqp]
    split_ifs
    · exact .inr rfl
    · exact .inl rfl
  case point => rw [high_single]; rfl
  case unordered => rw [linePasses_swap]

/-! ## Degenerate lines -/

theorem inclusive_eq_map (a b : Int) : inclusive a b = (inclusive 0 (b - a)).map (a + ·) := by
  simp [inclusive, Function.comp_def]

theorem passPoints_horizontal {xa xb : Int} (hx : xa < xb) (y : Int) :
    passPoints (low xa y xb y) = (inclusive xa xb).map (fun x => (x, y)) := by
  have hpoint : lowPoint xa y xb y = fun i => (xa + i, y) := by
    funext i
    simp [lowPoint, roundedStep_axis (sub_pos.2 hx)]
  rw [passPoints_low hx (by omega), hpoint, inclusive_eq_map xa xb, List.map_map]
  rfl

/-- An exact diagonal of LOW, up or down (R128). -/
theorem passPoints_diagonal {n d : Int} (hn : 0 < n) (hd : d = 1 ∨ d = -1) (x y : Int) :
    passPoints (low x y (x + n) (y + d * n)) = (inclusive 0 n).map (fun i => (x + i, y + d * i)) := by
  have hstep : (if d * n < 0 then -1 else 1) = d := by rcases hd with rfl | rfl <;> split_ifs <;> omega
  have habs : ((d * n).natAbs : Int) = n := by rcases hd with rfl | rfl <;> omega
  have hpoint : lowPoint x y (x + n) (y + d * n) = fun i => (x + i, y + d * i) := by
    funext i
    simp [lowPoint, add_sub_cancel_left, hstep, habs, roundedStep_diagonal hn]
  rw [passPoints_low (by omega) (by rw [add_sub_cancel_left, add_sub_cancel_left]; omega), hpoint, add_sub_cancel_left]

/-- A line of slope 1 or -1 is drawn by HIGH, with `y` driving upwards (R128). -/
theorem passPoints_line_diagonal {n d : Int} (hn : 0 ≤ n) (hd : d = 1 ∨ d = -1) (x y : Int) :
    passPoints (linePasses x y (x + d * n) (y + n)) = (inclusive 0 n).map (fun i => (x + d * i, y + i)) := by
  rcases eq_or_lt_of_le hn with rfl | hpos
  · rw [mul_zero, add_zero, add_zero, linePasses_point]
    simp [passPoints, inclusive]
  · have hslope : (x + d * n - x).natAbs ≤ (y + n - y).natAbs := by rcases hd with rfl | rfl <;> omega
    rw [linePasses_of_high (by omega) hslope, passPoints_high, passPoints_diagonal hpos hd, List.map_map]
    rfl

theorem passPoints_line_horizontal {x0 x1 : Int} (h : x0 < x1) (y : Int) :
    passPoints (linePasses x0 y x1 y) = (inclusive x0 x1).map (fun x => (x, y)) := by
  rw [linePasses_of_low h (by omega), passPoints_horizontal h]

theorem passPoints_line_vertical {y0 y1 : Int} (h : y0 < y1) (x : Int) :
    passPoints (linePasses x y0 x y1) = (inclusive y0 y1).map (fun y => (x, y)) := by
  rw [linePasses_of_high h.le (by omega), passPoints_high, passPoints_horizontal h, List.map_map]
  rfl

/-- Settles O34: each degenerate line by its rasterizer, in the order of its endpoints or the other. -/
theorem degenerateLines : Obligations.DegenerateLines := by
  refine ⟨fun x0 x1 y hne => ?horizontal, fun x y0 y1 hne => ?vertical, fun x y n hn => ⟨?rising, ?falling⟩,
    fun x y => ?point⟩
  case horizontal =>
    rcases lt_or_gt_of_ne hne with h | h
    · rw [min_eq_left h.le, max_eq_right h.le, passPoints_line_horizontal h]
    · rw [min_eq_right h.le, max_eq_left h.le, linePasses_swap, passPoints_line_horizontal h]
  case vertical =>
    rcases lt_or_gt_of_ne hne with h | h
    · rw [min_eq_left h.le, max_eq_right h.le, passPoints_line_vertical h]
    · rw [min_eq_right h.le, max_eq_left h.le, linePasses_swap, passPoints_line_vertical h]
  case rising => simpa only [one_mul] using passPoints_line_diagonal hn (.inl rfl) x y
  case falling => simpa only [neg_one_mul, ← sub_eq_add_neg] using passPoints_line_diagonal hn (.inr rfl) x y
  case point => rw [linePasses_point]; rfl

end Sys2Proof.Machine

/-! Proofs of the statements of 43_clear_init: CLEAR and INIT completed by the transport, and stopped by it. -/

namespace Sys2Proof.Machine

/-! ## The writes of CLEAR, bank by bank -/

@[simp] theorem length_clearBankWrites (b : Bank) : (clearBankWrites b).length = 86 := by simp [clearBankWrites]

/-- Each bank has 86 writes, so the writes of the `i`-th of some banks begin at entry `86 i` (R140). -/
theorem take_drop_flatMap_clearBankWrites {bs : List Bank} {i : Nat} {b : Bank} (h : bs[i]? = some b) :
    ((bs.flatMap clearBankWrites).drop (86 * i)).take 86 = clearBankWrites b := by
  induction bs generalizing i with
  | nil => simp at h
  | cons b' bs ih =>
    rw [List.flatMap_cons]
    cases i with
    | zero =>
      obtain rfl : b' = b := by simpa using h
      rw [Nat.mul_zero, List.drop_zero, List.take_left' (length_clearBankWrites b')]
    | succ i =>
      rw [Nat.mul_succ, Nat.add_comm, ← List.drop_drop, List.drop_left' (length_clearBankWrites b')]
      exact ih (by simpa using h)

theorem take_drop_clearWrites (b : Bank) : (clearWrites.drop (86 * b.val)).take 86 = clearBankWrites b := by
  unfold clearWrites
  exact take_drop_flatMap_clearBankWrites (by simp)

/-! ## CLEAR and INIT completed by the transport -/

/-- The big step of CLEAR and of INIT leaves every cell 0 and answers 0 (R140, R144). -/
theorem bigStep_clears {i : Instr} (hi : clearsDisplay i) (m : CellStore) :
    (∀ c b, fbRead (bigStep i m).fb c b = 0#8) ∧ (bigStep i m).code = 0 := by
  rcases hi with rfl | rfl
  · rw [bigStep_clear]; exact ⟨fbRead_clearBig m, rfl⟩
  · rw [bigStep_init]; exact ⟨fbRead_clearBig m, rfl⟩

theorem length_bigStep_clear (m : CellStore) : (bigStep .clear m).writes.length = 516 := by
  rw [bigStep_clear, length_clearWrites]

theorem length_bigStep_init (m : CellStore) : (bigStep .init m).writes.length = Config.initSeq.length + 516 := by
  rw [bigStep_init, List.length_append, List.length_map, length_clearWrites]

/-- CLEAR or INIT, its writes completed: every cell is 0, and the command ends with code 0 having sent them (R140, R144). -/
theorem exec_clears_done {i : Instr} (hi : clearsDisplay i) {s : State} (hrun : s.running)
    (hallow : s.transport.allows (bigStep i s.fb).writes.length) :
    ∃ t, exec i s = .next t ∧ (∀ c b, t.cell c b = 0#8) ∧ Ended 0 (bigStep i s.fb).writes s t := by
  obtain ⟨hzero, hcode⟩ := bigStep_clears hi s.fb
  obtain ⟨t, hexec, hfb, hend⟩ := smallStepMatchesBigStep i s hrun hallow
  rw [hcode] at hend
  exact ⟨t, hexec, fun c b => by rw [State.cell, hfb, hzero], hend⟩

/-- CLEAR or INIT, its writes completed, on a display it brings to the mirror: framebuffer and display RAM are both all zero
(R64, R141, R144). -/
theorem exec_clears_mirrored {i : Instr} (hi : clearsDisplay i) {s : State} (hrun : s.running)
    (hallow : s.transport.allows (bigStep i s.fb).writes.length) (hm : mirrorsOnEnd i s) :
    ∃ t, exec i s = .next t ∧ t.mirrored ∧ ∀ c b, t.display.byte c b = 0#8 := by
  obtain ⟨t, hexec, hcell, -⟩ := exec_clears_done hi hrun hallow
  obtain ⟨t', hexec', hready, hbyte⟩ := exec_mirrored hrun.stopped hallow hm
  obtain rfl := Host.Outcome.next.inj (hexec'.symm.trans hexec)
  exact ⟨_, hexec, ⟨hready, hbyte⟩, fun c b => (hbyte c b).trans (hcell c b)⟩

/-- CLEAR with its 516 writes completed, and what the display takes (R140). -/
theorem exec_clear_ended {s : State} (hrun : s.running) (hallow : s.transport.allows 516) :
    ∃ t, exec .clear s = .next t ∧ (∀ c b, t.cell c b = 0#8) ∧ Ended 0 clearWrites s t ∧
      t.display = clearWrites.foldl Display.take s.display := by
  refine ⟨_, exec_clear_done hrun.stopped (by rwa [length_clearWrites]), fun c b => ?_,
    ended_respond_doneState hrun.stopped _ _ _, respond_display _ _⟩
  rw [State.cell, respond_fb]
  exact fbRead_clearBig s.fb c b

/-- Settles O35: the writes are CLEAR's 516, cut bank by bank. -/
theorem clearZeroesAndSends : Obligations.ClearZeroesAndSends := by
  intro s hrun hallow
  obtain ⟨t, hexec, hcell, hend, hdisplay⟩ := exec_clear_ended hrun hallow
  exact ⟨t, clearWrites, hexec, hcell, hend, length_clearWrites, hdisplay, take_drop_clearWrites⟩

/-- An engine that has ended a command can run the next one it accepts. -/
theorem Ended.running_accept {c : Int} {ws : List Tx} {s t : State} (h : Ended c ws s t) (hrun : s.running)
    (w : CommandWord) : (accept w t).running := by
  obtain ⟨-, hfault, -⟩ := hrun
  exact ⟨rfl, h.fault.trans hfault, h.outstanding⟩

/-- Settles O36: the second CLEAR starts where the first ended, with the transport still live and the display still ready. -/
theorem clearTwice : Obligations.ClearTwice := by
  intro s t u w hrun hlive hexec₁ hexec₂
  obtain ⟨t', hexec, hcell₁, hend₁, hdisplay₁⟩ := exec_clear_ended hrun (by simp [hlive])
  obtain rfl := Host.Outcome.next.inj (hexec.symm.trans hexec₁)
  have hlive' : t'.transport = .live := by rw [hend₁.transport, hlive, Transport.after_live]
  obtain ⟨u', hexec', hcell₂, hend₂, hdisplay₂⟩ :=
    exec_clear_ended (hend₁.running_accept hrun w) (by simp [hlive'])
  obtain rfl := Host.Outcome.next.inj (hexec'.symm.trans hexec₂)
  refine ⟨fun c b => ⟨?_, hcell₁ c b⟩, fun hready c b => ?_, clearWrites, hend₁.trace, hend₂.trace, length_clearWrites⟩
  · rw [hcell₂, hcell₁]
  · obtain ⟨hready₁, hbyte₁⟩ := take_clearWrites hready
    rw [← hdisplay₁] at hready₁ hbyte₁
    obtain ⟨-, hbyte₂⟩ := take_clearWrites hready₁
    rw [accept_display] at hdisplay₂
    rw [hdisplay₂, hbyte₂, hbyte₁]
    exact ⟨rfl, rfl⟩

/-- Settles O37: CLEAR's writes zero a display that obeys R61 and R62, as its acts zero the framebuffer. -/
theorem clearSynchronizesDisplay : Obligations.ClearSynchronizesDisplay := fun s hrun hallow hready =>
  exec_clears_mirrored (.inl rfl) hrun (by rwa [length_bigStep_clear]) (.inr (.inl ⟨rfl, hready⟩))

/-- Settles O38: the big step of INIT, whose writes are the configuration's and then CLEAR's. -/
theorem initConfiguresAndClears : Obligations.InitConfiguresAndClears := by
  intro s hrun hallow
  have hdone := exec_clears_done (.inr rfl) hrun (by rwa [length_bigStep_init])
  rwa [bigStep_init] at hdone

/-- Settles O39: INIT brings the display to the mirror whatever state it was in (R63; log 13). -/
theorem initSynchronizesDisplay : Obligations.InitSynchronizesDisplay := fun s hrun hallow =>
  exec_clears_mirrored (.inr rfl) hrun (by rwa [length_bigStep_init]) (.inl rfl)

/-! ## CLEAR and INIT stopped by the transport -/

@[simp] theorem length_configWrites : configWrites.length = Config.initSeq.length := List.length_map _

theorem not_clearedAt_iff (n : Nat) (c : Column) (b : Bank) :
    ¬ clearedAt n c b ↔ n / 86 < b.val ∨ b.val = n / 86 ∧ n % 86 < c.val + 2 := by
  unfold clearedAt
  omega

/-- The display behind a stuck write has taken the completed ones, and perhaps the stuck one too (R57, R179; log 5). -/
theorem hungState_display_take {ws : List Tx} {n : Nat} {e : Tx} (he : ws[n]? = some e) (m : CellStore) (s : State) :
    ∃ k, (k = n ∨ k = n + 1) ∧ (hungState m (ws.take n) e s).display = (ws.take k).foldl Display.take s.display := by
  cases harrives : Config.stuckByteArrives s.free with
  | false => exact ⟨n, .inl rfl, by simp [hungState, harrives]⟩
  | true => exact ⟨n + 1, .inr rfl, by simp [hungState, harrives, List.take_add_one, he, List.foldl_append]⟩

/-- On a ready display a stopped CLEAR has zeroed the banks it has swept, and touched none it has not begun, whether the
stuck byte arrived or not (R57, R140). -/
theorem byte_hungState_clear {s : State} {n : Nat} {e : Tx} (he : clearWrites[n]? = some e) (hready : s.display.ready = true)
    (m : CellStore) (c : Column) (b : Bank) :
    (b.val < n / 86 → (hungState m (clearWrites.take n) e s).display.byte c b = 0#8) ∧
      (n / 86 < b.val → (hungState m (clearWrites.take n) e s).display.byte c b = s.display.byte c b) := by
  obtain ⟨k, hk, hdisplay⟩ := hungState_display_take he m s
  obtain ⟨hswept, hrest⟩ := take_clearWrites_take hready k c b
  rw [hdisplay]
  exact ⟨fun hb => hswept (by omega), fun hb => hrest (by omega)⟩

/-- INIT stopped after `n` writes leaves in the framebuffer what CLEAR leaves after those beyond the configuration: nothing
while there are none (R57, R144). -/
theorem exec_init_hung_cells {s : State} {n : Nat} (hs : s.stopped = false) (hp : s.transport = .hangsAfter n)
    (hn : n < configWrites.length + clearWrites.length) :
    ∃ t, exec .init s = .next t ∧ (∀ c b, clearedAt (n - configWrites.length) c b → t.cell c b = 0#8) ∧
      ∀ c b, ¬ clearedAt (n - configWrites.length) c b → t.cell c b = s.cell c b := by
  by_cases hconf : n < configWrites.length
  · obtain ⟨e, -, hexec⟩ := exec_init_hung_configuring hs hp hconf
    have hnone : ∀ c b, ¬ clearedAt (n - configWrites.length) c b := by
      intro c b
      rw [Nat.sub_eq_zero_of_le hconf.le, clearedAt]
      omega
    exact ⟨_, hexec, fun c b hc => absurd hc (hnone c b), fun _ _ _ => rfl⟩
  · obtain ⟨e, m, -, hexec, hzero, hkept⟩ := exec_init_hung_clearing hs hp (not_lt.1 hconf) hn
    exact ⟨_, hexec, hzero, hkept⟩

/-- Settles O59: a cell is zeroed just before its byte is sent (D19), and INIT's clearing starts after its configuration. -/
theorem hungClearKeepsUpdates : Obligations.HungClearKeepsUpdates := by
  intro s n hrun
  refine ⟨fun hn hp => ?_, fun hn hp => ?_⟩
  · obtain ⟨e, m, he, hexec, hzero, hkept⟩ := exec_clear_hung hrun.stopped hp (by rwa [length_clearWrites])
    exact ⟨_, hexec, hzero, fun c b hc => hkept c b ((not_clearedAt_iff n c b).2 hc), fun hready =>
      ⟨fun c b => (byte_hungState_clear he hready m c b).1, fun c b => (byte_hungState_clear he hready m c b).2⟩⟩
  · obtain ⟨t, hexec, hzero, hkept⟩ :=
      exec_init_hung_cells hrun.stopped hp (by rwa [length_configWrites, length_clearWrites])
    rw [length_configWrites] at hzero hkept
    exact ⟨t, hexec, hzero, fun c b hc => hkept c b ((not_clearedAt_iff _ c b).2 hc)⟩

end Sys2Proof.Machine

/-! Proofs of the statements of 60_exceptions: failure codes, reserved words, and InvariantFault. -/

namespace Sys2Proof.Machine

/-! ## InvariantFault -/

/-- A halted engine has no step, unless it takes a reset (R156, R162). -/
theorem step_of_halted {s : State} (hf : s.fault = true) (hr : ∀ plan rest, s.inputs ≠ .reset plan :: rest) :
    step s = .fault .engineHalted := by
  cases hin : s.inputs with
  | nil => simp [step, takeInput, hin, hf]
  | cons c rest =>
    cases c with
    | reset plan => exact absurd hin (hr plan rest)
    | command w => simp [step, takeInput, hin, hf]
    | bringUpDisplay => simp [step, takeInput, hin, hf]

/-- The transport never touches `FAULT`, whether it completes the writes or not (R57). -/
@[simp] theorem txAll_fault (es : List Tx) (s : State) : (txAll es s).fault = s.fault := by
  cases hs : s.stopped with
  | true => rw [txAll_of_stopped es hs]
  | false =>
    by_cases ha : s.transport.allows es.length
    · rw [txAll_allowed hs ha, deliver_fault]
    · obtain ⟨n, hp, hlt⟩ := (Transport.not_allows_iff _ _).1 ha
      rw [txAll_blocked hs hp (List.getElem?_eq_getElem hlt), hang_fault, deliver_fault]

/-- Only a plot off the display raises InvariantFault (R103, R156). -/
theorem plot_fault_of_onDisplay {x y : Int} (h : inX x ∧ inY y) (s : State) : (plot x y s).fault = s.fault := by
  cases hs : s.stopped with
  | true => rw [plot_of_stopped x y hs]
  | false =>
    obtain ⟨a, ha⟩ := translate_of_onDisplay h
    rw [plot_of_translate hs ha, txAll_fault]

/-- Every command leaves `FAULT` as it was: all the points it plots are on the display (R113, R132). -/
theorem exec_fault {i : Instr} {s t : State} (h : exec i s = .next t) : t.fault = s.fault := by
  obtain ⟨t', h', -, -, -, hf, -⟩ := exec_control i s
  obtain rfl := Host.Outcome.next.inj (h'.symm.trans h)
  exact hf

/-- No step raises InvariantFault, case by case over what a step can do. -/
theorem step_keeps_noFault {s t : State} (hf : s.fault = false) (h : step s = .next t) : t.fault = false := by
  rcases step_cases h with ⟨plan, rest, -, rfl⟩ | ⟨-, rfl, -⟩ | ⟨rest, -, -, -, rfl⟩ |
    ⟨w, rest, -, -, -, ⟨why, -, rfl⟩ | ⟨i, -, hexec⟩⟩
  · exact restart_fault _ _
  · exact hf
  · exact hf
  · exact (finish_fault _ _).trans hf
  · exact (exec_fault hexec).trans hf

/-- Settles O46: what a plot does on and off the display, what a halted engine does, and that every step keeps `FAULT` at 0. -/
theorem invariantFaultIsNeverRaised : Obligations.InvariantFaultIsNeverRaised := by
  refine ⟨fun s x y hrun hv => ?_, fun s x y hrun hx hy => ?_, fun s => step_of_halted, fun i s hf => ?_,
    fun s t => step_keeps_noFault⟩
  · have hstop := hrun.stopped
    obtain ⟨hb, -, -⟩ := hrun
    simp [plot_of_offDisplay hstop hv, hb]
  · obtain ⟨-, hf, -⟩ := hrun
    exact (plot_fault_of_onDisplay ⟨hx, hy⟩ s).trans hf
  · exact exec_of_stopped i ((stopped_eq_true_iff s).2 (.inl hf))

/-- Settles O13: a halted engine has no step but the reset, which clears `FAULT` and `BUSY`. -/
theorem haltedUntilReset : Obligations.HaltedUntilReset := fun _ hf =>
  ⟨step_of_halted hf, fun _ _ hin => ⟨_, step_of_reset hin, rfl, rfl⟩⟩

/-! ## Failure codes -/

/-- A command whose operands are invalid draws nothing (R102, R111, R121). -/
theorem pointsOf_of_invalid {i : Instr} (h : validOperands i = false) : pointsOf i = [] := by
  cases i with
  | setPixel x y => exact if_neg (of_decide_eq_false h)
  | axisLine x y ori =>
    have hnone : axisPoints x y ori = none :=
      Option.not_isSome_iff_eq_none.1 (mt (axisPoints_isSome_iff x y ori).1 (of_decide_eq_false h))
    rw [pointsOf, hnone, Option.getD_none]
  | line x0 y0 x1 y1 =>
    have hnone : linePoints x0 y0 x1 y1 = none :=
      Option.not_isSome_iff_eq_none.1 (mt (linePoints_isSome_iff x0 y0 x1 y1).1 (of_decide_eq_false h))
    rw [pointsOf, hnone, Option.getD_none]
  | clear => rfl
  | init => rfl

/-- CLEAR and INIT have no operand that could be invalid (R140, R144). -/
theorem not_clearsDisplay_of_invalid {i : Instr} (h : validOperands i = false) : ¬ clearsDisplay i := by
  rintro (rfl | rfl) <;> cases h

/-- The code of a command that fails: 1 for SETPIXEL, −1 for AXISLINE and LINE; CLEAR and INIT never fail (R81, R150). -/
def failureCode : Instr → Int
  | .setPixel _ _ => 1
  | _ => -1

theorem resultCode_of_invalid {i : Instr} (h : validOperands i = false) : resultCode i = failureCode i := by
  cases i <;> exact if_neg (by simp [h])

/-- A command with an invalid operand ends with its failure code, sends nothing and changes neither store, whatever the
transport (R150, R152): a drawing of no points has no write that the transport could stop. -/
theorem exec_of_invalid {i : Instr} (h : validOperands i = false) {s : State} (hs : s.stopped = false) :
    ∃ t, exec i s = .next t ∧ Ended (failureCode i) [] s t ∧ t.fb = s.fb ∧ t.display = s.display := by
  have hexec := exec_draw_done (not_clearsDisplay_of_invalid h) hs
    (by rw [pointsOf_of_invalid h]; exact Transport.allows_zero _)
  rw [pointsOf_of_invalid h, resultCode_of_invalid h] at hexec
  exact ⟨_, hexec, ended_respond_doneState hs _ s.fb [], respond_fb _ _, respond_display _ _⟩

/-- Settles O24: each of the three conditions says that the command's operands are invalid. -/
theorem failingCommandsHaveNoEffect : Obligations.FailingCommandsHaveNoEffect := by
  refine fun s hrun => ⟨fun x y hv => ?_, fun x y ori hv => ?_, fun x0 y0 x1 y1 hv => ?_⟩
  · exact exec_of_invalid (i := .setPixel x y) (decide_eq_false hv) hrun.stopped
  · exact exec_of_invalid (i := .axisLine x y ori) (decide_eq_false hv) hrun.stopped
  · exact exec_of_invalid (i := .line x0 y0 x1 y1) (decide_eq_false hv) hrun.stopped

/-! ## Reserved words -/

/-- Settles O9: the word is accepted and its rejection is the end of it. -/
theorem reservedWordIsRejected : Obligations.ReservedWordIsRejected := by
  intro s w rest hs hin hw
  have hrun := hs.running_accept w rest
  obtain ⟨hb, hf, ho⟩ := hs
  cases hd : decode w with
  | command i => exact absurd hd (hw i)
  | reserved why =>
    rw [step_of_reserved hin hf hb hd, reject, finish_of_not_stopped _ hrun.stopped]
    exact ⟨_, rfl, rfl, rfl, rfl, hf, ho, rfl, rfl, rfl, rfl, rfl⟩

/-- A SETPIXEL or AXISLINE word with a nonzero must-be-zero field is in no row of the opcode table (R76). -/
theorem decode_ne_command_of_nonzero {w : CommandWord}
    (h : ((fields w).op = 1#8 ∧ ((fields w).p2 ≠ 0#16 ∨ (fields w).p3 ≠ 0#16)) ∨
      ((fields w).op = 2#8 ∧ (fields w).p3 ≠ 0#16)) (i : Instr) : decode w ≠ .command i := by
  intro hd
  have hrow := inRow_of_decode hd
  rcases h with ⟨hop, hnz⟩ | ⟨hop, hnz⟩
  · cases i with
    | setPixel x y =>
      obtain ⟨-, hp2, hp3⟩ := hrow
      exact hnz.elim (absurd hp2) (absurd hp3)
    | _ => simp [Fields.inRow, hop] at hrow
  · cases i with
    | axisLine x y ori =>
      obtain ⟨-, hp3⟩ := hrow
      exact hnz hp3
    | _ => simp [Fields.inRow, hop] at hrow

/-- Settles O10: such a word decodes to no command, so it is rejected like every reserved word. -/
theorem decodePrecedesValidation : Obligations.DecodePrecedesValidation := by
  intro s w rest hs hin hw
  obtain ⟨t, ht, hrsp, -, hbusy, -, -, hfb, htrace, -⟩ :=
    reservedWordIsRejected s w rest hs hin (decode_ne_command_of_nonzero hw)
  exact ⟨t, ht, hrsp, hbusy, hfb, htrace⟩

end Sys2Proof.Machine

/-! Proofs of the statements of 70_reset_and_hazards: reset and the waiting engine, the end of every command, drawing again, and
the result of a run. -/

namespace Sys2Proof.Machine

/-! ## Waiting, reset and bring-up -/

/-- Settles O11: the next input is a command word and so no reset, and a busy engine waits. -/
theorem busyPortTakesNoWord : Obligations.BusyPortTakesNoWord := fun _ _ _ hb hf hin =>
  step_of_waiting hf (by simp [hin]) (.inl hb)

/-- Settles O12: with no input there is no reset to take; the reset state has none. -/
theorem idleEngineWaits : Obligations.IdleEngineWaits := by
  have hwait : ∀ s : State, s.fault = false → s.inputs = [] → step s = .next s := fun _ hf hin =>
    step_of_waiting hf (by simp [hin]) (.inr hin)
  exact ⟨hwait, hwait State.reset rfl rfl⟩

/-- Settles O14: the step is the restart, whose fields are the reset values (R33) but for the display, which it keeps. -/
theorem resetTakenInEveryCondition : Obligations.ResetTakenInEveryCondition := fun _ _ _ hin =>
  ⟨_, step_of_reset hin, rfl, rfl, rfl, rfl, rfl, rfl, rfl⟩

/-- Settles O16: the step is the bring-up, after which the display is configured and its RAM unknown (R63). -/
theorem bringUpTouchesDisplayOnly : Obligations.BringUpTouchesDisplayOnly := by
  rintro s rest ⟨hb, hf, -⟩ hin
  exact ⟨s.display.unknown.configured, step_of_bringUp hin hf hb, rfl, rfl⟩

/-! ## Every command ends, or is blocked at a write -/

theorem length_ray_le {o : Orientation} {x y : Int} (hx : inX x) (hy : inY y) : (ray o x y).length ≤ 84 := by
  cases o with
  | horizontal => rw [ray, length_hsweep]; omega
  | vertical => rw [ray, length_vsweep]; omega

theorem length_axisPoints_le {x y ori : Int} {ps : List Point} (h : axisPoints x y ori = some ps) : ps.length ≤ 84 := by
  unfold axisPoints at h
  split_ifs at h with hv
  obtain ⟨o, -, rfl⟩ := Option.map_eq_some_iff.1 h
  obtain ⟨hx, hy⟩ := hv
  exact length_ray_le hx hy

theorem length_linePoints_le {x0 y0 x1 y1 : Int} {ps : List Point} (h : linePoints x0 y0 x1 y1 = some ps) :
    ps.length ≤ 84 := by
  obtain ⟨hx0, hy0, hx1, hy1⟩ := (linePoints_isSome_iff x0 y0 x1 y1).1 (Option.isSome_of_eq_some h)
  obtain ⟨ps', h', -, -, hle, -⟩ := linePointCount x0 y0 x1 y1 hx0 hy0 hx1 hy1
  obtain rfl := Option.some.inj (h.symm.trans h')
  exact hle

/-- A command draws at most one point in each column, or one in each row (R112, R114, R130). -/
theorem length_pointsOf_le (i : Instr) : (pointsOf i).length ≤ 84 := by
  cases i with
  | setPixel x y => rw [pointsOf]; split_ifs <;> simp
  | axisLine x y ori =>
    cases h : axisPoints x y ori with
    | none => simp [pointsOf, h]
    | some ps => simpa [pointsOf, h] using length_axisPoints_le h
  | line x0 y0 x1 y1 =>
    cases h : linePoints x0 y0 x1 y1 with
    | none => simp [pointsOf, h]
    | some ps => simpa [pointsOf, h] using length_linePoints_le h
  | clear => exact Nat.zero_le _
  | init => exact Nat.zero_le _

/-- A drawing command sends one triplet for each of its points (R102, R103). -/
theorem length_bigStep_draw {i : Instr} (hi : ¬ clearsDisplay i) (m : CellStore) :
    (bigStep i m).writes.length = 3 * (pointsOf i).length := by
  rw [bigStep_draw hi]
  exact length_drawBig (pointsOf_onDisplay i) m

/-- Settles O43: with all its writes completed a command ends, and otherwise the transport blocks it at the next one. -/
theorem commandEndsIffWritesComplete : Obligations.CommandEndsIffWritesComplete := by
  refine ⟨fun i m => ⟨fun hi => ⟨length_bigStep_draw hi m, length_pointsOf_le i⟩, ?clear, ?init⟩, fun i s hrun => ?ends,
    fun s hb hf _ hr => step_of_waiting hf hr (.inl hb)⟩
  case clear => rintro rfl; exact length_bigStep_clear m
  case init => rintro rfl; exact length_bigStep_init m
  case ends =>
    by_cases hallow : s.transport.allows (bigStep i s.fb).writes.length
    · obtain ⟨t, hexec, -, hend⟩ := smallStepMatchesBigStep i s hrun hallow
      obtain ⟨-, hfault, -⟩ := hrun
      exact ⟨t, hexec, by simp [hend.busy, hallow], hend.fault.trans hfault, by simp [hend.busy, hend.outstanding]⟩
    · obtain ⟨n, hp, hlt⟩ := (Transport.not_allows_iff _ _).1 hallow
      obtain ⟨t, e, hexec, -, hblocked⟩ := hungTransportBlocks i s n hrun hp hlt
      obtain ⟨hbusy, hfault, -⟩ := hrun
      have hb : t.busy = true := hblocked.busy.trans hbusy
      exact ⟨t, hexec, by simp [hb, hallow], hblocked.fault.trans hfault, by simp [hb, hblocked.outstanding]⟩

/-! ## Drawing again -/

/-- Whatever the transport does, a drawing command leaves the drawing of the first of its points: none if the engine is
stopped, all if it ends, and those whose triplet was begun if it hangs (R57, R67). -/
theorem exec_draw_fb {i : Instr} (hi : ¬ clearsDisplay i) {s t : State} (h : exec i s = .next t) :
    ∃ k, t.fb = (drawBig ((pointsOf i).take k) s.fb).1 := by
  cases hs : s.stopped with
  | true =>
    obtain rfl := Host.Outcome.next.inj ((exec_of_stopped i hs).symm.trans h)
    exact ⟨0, rfl⟩
  | false =>
    by_cases ha : s.transport.allows (drawBig (pointsOf i) s.fb).2.length
    · obtain rfl := Host.Outcome.next.inj ((exec_draw_done hi hs ha).symm.trans h)
      exact ⟨(pointsOf i).length, by rw [respond_fb, doneState_fb, List.take_length]⟩
    · obtain ⟨n, hp, hlt⟩ := (Transport.not_allows_iff _ _).1 ha
      obtain ⟨e, -, hexec⟩ := exec_draw_hung hi hs hp hlt
      obtain rfl := Host.Outcome.next.inj (hexec.symm.trans h)
      exact ⟨n / 3 + 1, hungState_fb _ _ _ _⟩

/-- No command but CLEAR and INIT turns a pixel off (R180). -/
theorem exec_draw_keepsPixel {i : Instr} (hi : ¬ clearsDisplay i) {s t : State} (h : exec i s = .next t) {x y : Int}
    (hon : s.pixel x y = true) : t.pixel x y = true := by
  obtain ⟨k, hfb⟩ := exec_draw_fb hi h
  rw [State.pixel, hfb, fbPixel_drawBig fun q hq => pointsOf_onDisplay i q (List.mem_of_mem_take hq)]
  exact Bool.or_eq_true_iff.2 (.inl hon)

/-- Every pixel that a drawing turns on is on already when it is drawn again (R180). -/
theorem fbRead_drawBig_again {ps : List Point} (h : ∀ q ∈ ps, onDisplay q) (m : CellStore) (c : Column) (b : Bank) :
    fbRead (drawBig ps (drawBig ps m).1).1 c b = fbRead (drawBig ps m).1 c b := by
  refine fbRead_eq_of_fbPixel (fun x y _ _ => ?_) c b
  rw [fbPixel_drawBig h, fbPixel_drawBig h, Bool.or_assoc, Bool.or_self]

/-- A drawing command under a live transport: its drawing in the framebuffer, and its end (R6). -/
theorem exec_draw_live {i : Instr} (hi : ¬ clearsDisplay i) {s t : State} (hrun : s.running) (hlive : s.transport = .live)
    (h : exec i s = .next t) :
    t.fb = (drawBig (pointsOf i) s.fb).1 ∧ Ended (resultCode i) (drawBig (pointsOf i) s.fb).2 s t := by
  obtain ⟨t', hexec, hdone⟩ := smallStepMatchesBigStep i s hrun (by simp [hlive])
  obtain rfl := Host.Outcome.next.inj (hexec.symm.trans h)
  rwa [bigStep_draw hi] at hdone

/-- A command on a mirroring display, under a live transport, keeps the mirror (R64). -/
theorem exec_live_mirrored {i : Instr} {s t : State} (hrun : s.running) (hlive : s.transport = .live) (hm : s.mirrored)
    (h : exec i s = .next t) : t.mirrored := by
  obtain ⟨t', hexec, hmirror⟩ := exec_mirrored hrun.stopped (by simp [hlive]) (.inr (.inr hm))
  obtain rfl := Host.Outcome.next.inj (hexec.symm.trans h)
  exact hmirror

/-- Settles O44: the second drawing finds its pixels on and sends as many triplets; its display mirrors the same cells. -/
theorem pixelsOnlyAccumulate : Obligations.PixelsOnlyAccumulate := by
  refine ⟨fun i s t x y hi h => exec_draw_keepsPixel hi h, fun i s t u w hi hrun hlive hfirst hagain => ?_⟩
  have hon := pointsOf_onDisplay i
  obtain ⟨hfb₁, hend₁⟩ := exec_draw_live hi hrun hlive hfirst
  have hrun' := hend₁.running_accept hrun w
  have hlive' : (accept w t).transport = .live := by rw [accept_transport, hend₁.transport, hlive, Transport.after_live]
  obtain ⟨hfb₂, hend₂⟩ := exec_draw_live hi hrun' hlive' hagain
  have hcell : ∀ c b, u.cell c b = t.cell c b := fun c b => by
    rw [State.cell, State.cell, hfb₂, accept_fb, hfb₁]
    exact fbRead_drawBig_again hon s.fb c b
  refine ⟨hcell, fun hm c b => ?mirror, 3 * (pointsOf i).length, ?first, ?again⟩
  case mirror =>
    obtain ⟨-, hbyte⟩ := exec_live_mirrored hrun' hlive' hm hagain
    obtain ⟨-, hbyte'⟩ := hm
    rw [hbyte, hcell, hbyte']
  case first => rw [hend₁.trace, List.length_append, length_drawBig hon]
  case again => rw [hend₂.trace, List.length_append, length_drawBig hon, accept_trace]

/-! ## The result of a run -/

theorem length_responses_wordBig (w : CommandWord) (m : CellStore) : (wordBig w m).responses.length = 1 := by
  cases hd : decode w with
  | command i => rw [wordBig_of_command hd]; rfl
  | reserved why => rw [wordBig_of_reserved hd]; rfl

/-- A program has one response for each of its words, valid, failing or reserved (R187). -/
theorem length_responses_programBig (ws : List CommandWord) (m : CellStore) :
    (programBig ws m).responses.length = ws.length := by
  induction ws generalizing m with
  | nil => rfl
  | cons w ws ih =>
    rw [programBig, List.length_append, length_responses_wordBig, ih, List.length_cons, Nat.add_comm]

/-- An idle engine that has run out of inputs is at the end of its run (R187). -/
theorem Ran.runResult {r : RunResult} {s t : State} (h : Ran r [] s t) :
    t.runResult = some { fb := r.fb, responses := s.responses ++ r.responses, trace := s.trace ++ r.trace } := by
  obtain ⟨hb, hf, ho⟩ := h.idle
  rw [State.runResult, if_pos ⟨hb, hf, ho, h.inputs⟩, h.fb, h.responses, h.trace]

theorem runResult_eq_none {s : State} (h : s.busy = true ∨ s.fault = true ∨ s.outstanding ≠ none ∨ s.inputs ≠ []) :
    s.runResult = none := by
  refine if_neg fun ⟨hb, hf, ho, hin⟩ => ?_
  rcases h with h | h | h | h
  · simp [hb] at h
  · simp [hf] at h
  · exact h ho
  · exact h hin

/-- Settles O60: the run of the program is that of its big steps, and it ends idle with no input left. -/
theorem runResultOfAProgram : Obligations.RunResultOfAProgram := by
  refine ⟨fun s ws hs hin hallow => ?_, fun s => runResult_eq_none⟩
  obtain ⟨t, hrun, hran⟩ := run_ran hs hin hallow
  exact ⟨t, hrun, length_responses_programBig ws s.fb, hran.runResult⟩

end Sys2Proof.Machine
